-- ==== Sys2Proof/Word.lean ====
section
/-! DEFINITION. The word types of the CHIP-8 core: the byte, the 16-bit word, the 12-bit address
operand, and the index of a general register (00_scope.md R8, R10; 10_state.md R22, R26, R27). -/

namespace Sys2Proof

/-- An 8-bit byte: a memory cell, a general register, a timer (R8). -/
abbrev Byte := BitVec 8

/-- A 16-bit word: an instruction word, I, PC, a stack slot (R8, R80). -/
abbrev Word := BitVec 16

/-- The 12-bit address operand `nnn` of an instruction (R82). -/
abbrev Addr12 := BitVec 12

/-- The index of a general register V0..VF, the 4-bit register field of an instruction (R22). -/
abbrev RegIdx := Fin 16

/-- FLAG_REG of R8: the register index 0xF of VF. -/
abbrev flagReg : RegIdx := 15

end Sys2Proof
end

