-- ==== Sys2Proof/Config.lean ====
section
/-! DEFINITION. The fixed parameters (00_scope.md R8), the types of the configuration parameters (R9; their
defaults stand in Machine/Defaults.lean), and the one free value, the host's random byte (60_exceptions.md R225). -/

namespace Sys2Proof

/-- MEM_SIZE of R8: 4096 bytes, addresses 0x000 to 0xFFF. -/
abbrev memSize : Nat := 0x1000

/-- PROG_BASE of R8: where the image is loaded and where execution starts. -/
abbrev progBase : Nat := 0x200

/-- The first address above the font table (20_memory.md R58): the 80 bytes 0x000..0x04F. -/
abbrev fontEnd : Nat := 0x050

/-- The longest program image, 0x1000 - 0x200 = 3584 bytes (70_reset_and_hazards.md R241). -/
abbrev maxImage : Nat := 3584

/-- SHIFT_SOURCE of R9 (decision D8): the register that 8xy6 and 8xyE shift. -/
inductive ShiftSource where
  | vx | vy
  deriving DecidableEq, Repr

/-- VF_ORDER of R9 (decision D7): which write to VF lands when the destination is VF. -/
inductive VfOrder where
  | flagLast | resultLast
  deriving DecidableEq, Repr

/-- LOADSTORE_I_INCREMENT of R9 (decision D10): I after Fx55 and Fx65. -/
inductive LoadStoreIncrement where
  | none | xPlus1 | x
  deriving DecidableEq, Repr

/-- JUMP_OFFSET_REG of R9 (decision D11): the register added by Bnnn. -/
inductive JumpOffsetReg where
  | v0 | vx
  deriving DecidableEq, Repr

/-- SYS_POLICY of R9 (decision D13): the words 0nnn other than 00E0 and 00EE. -/
inductive SysPolicy where
  | decodeFault | ignore
  deriving DecidableEq, Repr

/-- FONT_DIGIT_MODE of R9 (decision D15): how Fx29 reads its digit. -/
inductive FontDigitMode where
  | unmasked | lowNibble
  deriving DecidableEq, Repr

/-- FONT_WRITE_POLICY of R9 (decision D16): a store to 0x000..0x04F. -/
inductive FontWritePolicy where
  | fault | allow
  deriving DecidableEq, Repr

/-- KEY_INDEX_POLICY of R9 (decision D17): a key skip with Vx above 0xF. -/
inductive KeyIndexPolicy where
  | fault | lowNibble
  deriving DecidableEq, Repr

/-- KEY_MODEL of R9 (decision D18): whether a key stays true while held, or for one step only. -/
inductive KeyModel where
  | level | edge
  deriving DecidableEq, Repr

/-- INIT_REG_POLICY of R9 (decision D25): a read of V, I, DT or ST before its first write. -/
inductive InitRegPolicy where
  | zero | faultOnUnwritten
  deriving DecidableEq, Repr

/-- FONT_TABLE of R9 (decision D14): 80 bytes, the glyph of digit d at 5*d (10_state.md R35). -/
abbrev FontTable := Vector Byte 80

/-- The configuration parameters of R9, fixed for a run (10_state.md R21). -/
structure Config where
  shiftSource        : ShiftSource
  vfOrder            : VfOrder
  /-- LOGIC_VF_RESET: OR, AND and XOR also write VF <- 0 (decision D9). -/
  logicVfReset       : Bool
  loadStoreIncrement : LoadStoreIncrement
  jumpOffsetReg      : JumpOffsetReg
  /-- STRICT_5_9: 5xyn and 9xyn with n != 0 are decode faults (decision D12). -/
  strict59           : Bool
  sysPolicy          : SysPolicy
  fontTable          : FontTable
  fontDigitMode      : FontDigitMode
  fontWritePolicy    : FontWritePolicy
  keyIndexPolicy     : KeyIndexPolicy
  keyModel           : KeyModel
  initRegPolicy      : InitRegPolicy
  deriving DecidableEq, Repr

/-- FREE VALUE (R225, R110, decision D34): the byte the host's random capability answers at its k-th
request, any value 0..255. It has no body, so nothing can be proved of it (log entry 3). -/
opaque Config.randomByte : Nat → Byte

end Sys2Proof
end

