-- ==== Sys2Proof/Machine/Defaults.lean ====
section
/-! DEFINITION. The default value of every configuration parameter (00_scope.md R9), the font table of
10_state.md R35 among them. -/

namespace Sys2Proof

/-- The table of 10_state.md R35, which the spec takes from general knowledge (G3). -/
def FontTable.conventional : FontTable :=
  ⟨⟨[0xF0, 0x90, 0x90, 0x90, 0xF0, 0x20, 0x60, 0x20, 0x20, 0x70] ++
    [0xF0, 0x10, 0xF0, 0x80, 0xF0, 0xF0, 0x10, 0xF0, 0x10, 0xF0] ++
    [0x90, 0x90, 0xF0, 0x10, 0x10, 0xF0, 0x80, 0xF0, 0x10, 0xF0] ++
    [0xF0, 0x80, 0xF0, 0x90, 0xF0, 0xF0, 0x10, 0x20, 0x40, 0x40] ++
    [0xF0, 0x90, 0xF0, 0x90, 0xF0, 0xF0, 0x90, 0xF0, 0x10, 0xF0] ++
    [0xF0, 0x90, 0xF0, 0x90, 0x90, 0xE0, 0x90, 0xE0, 0x90, 0xE0] ++
    [0xF0, 0x80, 0x80, 0x80, 0xF0, 0xE0, 0x90, 0x90, 0x90, 0xE0] ++
    [0xF0, 0x80, 0xF0, 0x80, 0xF0, 0xF0, 0x80, 0xF0, 0x80, 0x80]⟩, rfl⟩

/-- The default of every parameter, the "default" column of R9. -/
def Config.default : Config where
  shiftSource        := .vx
  vfOrder            := .flagLast
  logicVfReset       := false
  loadStoreIncrement := .none
  jumpOffsetReg      := .v0
  strict59           := false
  sysPolicy          := .decodeFault
  fontTable          := FontTable.conventional
  fontDigitMode      := .unmasked
  fontWritePolicy    := .fault
  keyIndexPolicy     := .fault
  keyModel           := .level
  initRegPolicy      := .zero

end Sys2Proof
end

