-- ==== Sys2Proof/Syntax.lean ====
section
/-! DEFINITION. The instructions: one constructor for each of the 35 rows of spec/opcode_table.json,
carrying only the operands it needs (30_encoding.md R85, R86). -/

namespace Sys2Proof

/-- The opcode type of R85, in the order of R86. `x` and `y` are register indices, `nnn` a 12-bit
address, `kk` an 8-bit immediate, `n` the row count of DRW (R82, R84). -/
inductive Instr where
  /-- 0nnn, SYS nnn (41_control_flow.md R120) -/
  | sys (nnn : Addr12)
  /-- 00E0, CLS (44_display.md R180) -/
  | cls
  /-- 00EE, RET (R121) -/
  | ret
  /-- 1nnn, JP nnn (R122) -/
  | jp (nnn : Addr12)
  /-- 2nnn, CALL nnn (R123) -/
  | call (nnn : Addr12)
  /-- 3xkk, SE Vx, kk (R124) -/
  | seImm (x : RegIdx) (kk : Byte)
  /-- 4xkk, SNE Vx, kk (R125) -/
  | sneImm (x : RegIdx) (kk : Byte)
  /-- 5xy0, SE Vx, Vy (R126) -/
  | seReg (x y : RegIdx)
  /-- 6xkk, LD Vx, kk (42_load_index.md R140) -/
  | ldImm (x : RegIdx) (kk : Byte)
  /-- 7xkk, ADD Vx, kk (43_arith.md R161) -/
  | addImm (x : RegIdx) (kk : Byte)
  /-- 8xy0, LD Vx, Vy (R141) -/
  | ldReg (x y : RegIdx)
  /-- 8xy1, OR Vx, Vy (R163) -/
  | or (x y : RegIdx)
  /-- 8xy2, AND Vx, Vy (R164) -/
  | and (x y : RegIdx)
  /-- 8xy3, XOR Vx, Vy (R165) -/
  | xor (x y : RegIdx)
  /-- 8xy4, ADD Vx, Vy (R166) -/
  | addReg (x y : RegIdx)
  /-- 8xy5, SUB Vx, Vy (R167) -/
  | sub (x y : RegIdx)
  /-- 8xy6, SHR Vx (, Vy) (R168) -/
  | shr (x y : RegIdx)
  /-- 8xy7, SUBN Vx, Vy (R169) -/
  | subn (x y : RegIdx)
  /-- 8xyE, SHL Vx (, Vy) (R170) -/
  | shl (x y : RegIdx)
  /-- 9xy0, SNE Vx, Vy (R127) -/
  | sneReg (x y : RegIdx)
  /-- Annn, LD I, nnn (R142) -/
  | ldI (nnn : Addr12)
  /-- Bnnn, JP V0, nnn (R128) -/
  | jpV0 (nnn : Addr12)
  /-- Cxkk, RND Vx, kk (R171) -/
  | rnd (x : RegIdx) (kk : Byte)
  /-- Dxyn, DRW Vx, Vy, n (R181) -/
  | drw (x y : RegIdx) (n : Fin 16)
  /-- Ex9E, SKP Vx (45_keypad_timer.md R191) -/
  | skp (x : RegIdx)
  /-- ExA1, SKNP Vx (R192) -/
  | sknp (x : RegIdx)
  /-- Fx07, LD Vx, DT (R194) -/
  | ldVDt (x : RegIdx)
  /-- Fx0A, LD Vx, K (R193) -/
  | ldK (x : RegIdx)
  /-- Fx15, LD DT, Vx (R195) -/
  | ldDtV (x : RegIdx)
  /-- Fx18, LD ST, Vx (R196) -/
  | ldStV (x : RegIdx)
  /-- Fx1E, ADD I, Vx (R143) -/
  | addI (x : RegIdx)
  /-- Fx29, LD F, Vx (R144) -/
  | ldF (x : RegIdx)
  /-- Fx33, LD B, Vx (R145) -/
  | ldB (x : RegIdx)
  /-- Fx55, LD [I], Vx (R146) -/
  | ldMemV (x : RegIdx)
  /-- Fx65, LD Vx, [I] (R147) -/
  | ldVMem (x : RegIdx)
  deriving DecidableEq, Repr

end Sys2Proof
end

