-- ==== Sys2Proof/WellFormed.lean ====
section
/-! DEFINITION. Which instructions a word can spell under a configuration. The operand types already
bound every field; what is left to check is the SYS row (30_encoding.md R88, R95). -/

namespace Sys2Proof

/-- An instruction that some word decodes to under `cfg`. Only SYS is restricted: it is an opcode only
when SYS_POLICY = ignore (R88), and the words 00E0 and 00EE are CLS and RET, never SYS (R86, R95). -/
def wellFormed (cfg : Config) : Instr → Bool
  | .sys nnn => cfg.sysPolicy == .ignore && nnn != 0x0E0#12 && nnn != 0x0EE#12
  | .cls | .ret | .jp _ | .call _ | .seImm _ _ | .sneImm _ _ | .seReg _ _ | .ldImm _ _
  | .addImm _ _ | .ldReg _ _ | .or _ _ | .and _ _ | .xor _ _ | .addReg _ _ | .sub _ _
  | .shr _ _ | .subn _ _ | .shl _ _ | .sneReg _ _ | .ldI _ | .jpV0 _ | .rnd _ _ | .drw _ _ _
  | .skp _ | .sknp _ | .ldVDt _ | .ldK _ | .ldDtV _ | .ldStV _ | .addI _ | .ldF _ | .ldB _
  | .ldMemV _ | .ldVMem _ => true

end Sys2Proof
end

