-- ==== Sys2Proof/Decode.lean ====
section
/-! DEFINITION. The decoder (30_encoding.md R81 to R94), total on every word and rejecting an illegal one
by name, and after it the encoder (R95), written from the same table (R83, R86). Every bit pattern is the
conventional one, which the spec marks as general knowledge (log entry 8). -/

namespace Sys2Proof

/-- What the decoder answers (R85): a tagged opcode, or the decode fault of that word. -/
inductive Decoded where
  | op (i : Instr)
  | decodeFault (w : Word)
  deriving DecidableEq, Repr

/-- `w[15:12]`, the leading nibble, which selects the family (R81). -/
def fieldA (w : Word) : BitVec 4 := w.extractLsb' 12 4

/-- `x = w[11:8]`, the second nibble (R82). -/
def fieldX (w : Word) : RegIdx := (w.extractLsb' 8 4).toFin

/-- `y = w[7:4]`, the third nibble (R82). -/
def fieldY (w : Word) : RegIdx := (w.extractLsb' 4 4).toFin

/-- `n = w[3:0]`, the lowest nibble (R82). -/
def fieldN (w : Word) : BitVec 4 := w.extractLsb' 0 4

/-- `kk = w[7:0]`, the low 8 bits (R82). -/
def fieldKK (w : Word) : Byte := w.extractLsb' 0 8

/-- `nnn = w[11:0]`, the low 12 bits (R82). -/
def fieldNNN (w : Word) : Addr12 := w.extractLsb' 0 12

/-- Family 0x0: whole-word matches, and the SYS space (R88). -/
def decodeFamily0 (cfg : Config) (w : Word) : Decoded :=
  if w = 0x00E0#16 then .op .cls
  else if w = 0x00EE#16 then .op .ret
  else if cfg.sysPolicy = .ignore then .op (.sys (fieldNNN w))
  else .decodeFault w

/-- Family 0x8, selected by the lowest nibble (R90). -/
def decodeFamily8 (w : Word) : Decoded :=
  match fieldN w with
  | 0x0#4 => .op (.ldReg (fieldX w) (fieldY w))
  | 0x1#4 => .op (.or (fieldX w) (fieldY w))
  | 0x2#4 => .op (.and (fieldX w) (fieldY w))
  | 0x3#4 => .op (.xor (fieldX w) (fieldY w))
  | 0x4#4 => .op (.addReg (fieldX w) (fieldY w))
  | 0x5#4 => .op (.sub (fieldX w) (fieldY w))
  | 0x6#4 => .op (.shr (fieldX w) (fieldY w))
  | 0x7#4 => .op (.subn (fieldX w) (fieldY w))
  | 0xE#4 => .op (.shl (fieldX w) (fieldY w))
  | _ => .decodeFault w

/-- Family 0xE, selected by the trailing byte (R91). -/
def decodeFamilyE (w : Word) : Decoded :=
  match fieldKK w with
  | 0x9E#8 => .op (.skp (fieldX w))
  | 0xA1#8 => .op (.sknp (fieldX w))
  | _ => .decodeFault w

/-- Family 0xF, selected by the trailing byte (R91). -/
def decodeFamilyF (w : Word) : Decoded :=
  match fieldKK w with
  | 0x07#8 => .op (.ldVDt (fieldX w))
  | 0x0A#8 => .op (.ldK (fieldX w))
  | 0x15#8 => .op (.ldDtV (fieldX w))
  | 0x18#8 => .op (.ldStV (fieldX w))
  | 0x1E#8 => .op (.addI (fieldX w))
  | 0x29#8 => .op (.ldF (fieldX w))
  | 0x33#8 => .op (.ldB (fieldX w))
  | 0x55#8 => .op (.ldMemV (fieldX w))
  | 0x65#8 => .op (.ldVMem (fieldX w))
  | _ => .decodeFault w

/-- Families 0x5 and 0x9: the lowest nibble is examined only under STRICT_5_9 (R89). -/
def decodeFamily59 (cfg : Config) (w : Word) (i : Instr) : Decoded :=
  if cfg.strict59 && fieldN w != 0x0#4 then .decodeFault w else .op i

/-- The decode algorithm of R87. Of the sixteen families the last arm is 0xF. -/
def decode (cfg : Config) (w : Word) : Decoded :=
  match fieldA w with
  | 0x0#4 => decodeFamily0 cfg w
  | 0x1#4 => .op (.jp (fieldNNN w))
  | 0x2#4 => .op (.call (fieldNNN w))
  | 0x3#4 => .op (.seImm (fieldX w) (fieldKK w))
  | 0x4#4 => .op (.sneImm (fieldX w) (fieldKK w))
  | 0x5#4 => decodeFamily59 cfg w (.seReg (fieldX w) (fieldY w))
  | 0x6#4 => .op (.ldImm (fieldX w) (fieldKK w))
  | 0x7#4 => .op (.addImm (fieldX w) (fieldKK w))
  | 0x8#4 => decodeFamily8 w
  | 0x9#4 => decodeFamily59 cfg w (.sneReg (fieldX w) (fieldY w))
  | 0xA#4 => .op (.ldI (fieldNNN w))
  | 0xB#4 => .op (.jpV0 (fieldNNN w))
  | 0xC#4 => .op (.rnd (fieldX w) (fieldKK w))
  | 0xD#4 => .op (.drw (fieldX w) (fieldY w) (fieldN w).toFin)
  | 0xE#4 => decodeFamilyE w
  | _ => decodeFamilyF w

/-- The word at two bytes, `mem[a] << 8 OR mem[a+1]`: big-endian (20_memory.md R52). -/
def wordOfBytes (hi lo : Byte) : Word := hi.setWidth 16 <<< 8 ||| lo.setWidth 16

/-- Bits 15..8 of a word, the byte at the lower address (R52). -/
def highByte (w : Word) : Byte := w.extractLsb' 8 8

/-- Bits 7..0 of a word, the byte at the higher address (R52). -/
def lowByte (w : Word) : Byte := w.extractLsb' 0 8

/-- A register index or a row count as the 4-bit field of a word. -/
def nibble (k : Fin 16) : BitVec 4 := BitVec.ofFin k

/-- Format NNN of R83. -/
def encodeNNN (a : BitVec 4) (nnn : Addr12) : Word := a.setWidth 16 <<< 12 ||| nnn.setWidth 16

/-- Formats XKK and XF of R83 (in XF the trailing byte is the selector). -/
def encodeXKK (a : BitVec 4) (x : RegIdx) (kk : Byte) : Word :=
  a.setWidth 16 <<< 12 ||| (nibble x).setWidth 16 <<< 8 ||| kk.setWidth 16

/-- Format XYN of R83. -/
def encodeXYN (a : BitVec 4) (x y : RegIdx) (n : BitVec 4) : Word :=
  a.setWidth 16 <<< 12 ||| (nibble x).setWidth 16 <<< 8 ||| (nibble y).setWidth 16 <<< 4 ||| n.setWidth 16

/-- The encoder of R95: each opcode's pattern of R86 with its fields, n = 0 for SE and SNE of registers. -/
def encode : Instr → Word
  | .sys nnn    => encodeNNN 0x0#4 nnn
  | .cls        => 0x00E0#16
  | .ret        => 0x00EE#16
  | .jp nnn     => encodeNNN 0x1#4 nnn
  | .call nnn   => encodeNNN 0x2#4 nnn
  | .seImm x kk  => encodeXKK 0x3#4 x kk
  | .sneImm x kk => encodeXKK 0x4#4 x kk
  | .seReg x y  => encodeXYN 0x5#4 x y 0x0#4
  | .ldImm x kk => encodeXKK 0x6#4 x kk
  | .addImm x kk => encodeXKK 0x7#4 x kk
  | .ldReg x y  => encodeXYN 0x8#4 x y 0x0#4
  | .or x y     => encodeXYN 0x8#4 x y 0x1#4
  | .and x y    => encodeXYN 0x8#4 x y 0x2#4
  | .xor x y    => encodeXYN 0x8#4 x y 0x3#4
  | .addReg x y => encodeXYN 0x8#4 x y 0x4#4
  | .sub x y    => encodeXYN 0x8#4 x y 0x5#4
  | .shr x y    => encodeXYN 0x8#4 x y 0x6#4
  | .subn x y   => encodeXYN 0x8#4 x y 0x7#4
  | .shl x y    => encodeXYN 0x8#4 x y 0xE#4
  | .sneReg x y => encodeXYN 0x9#4 x y 0x0#4
  | .ldI nnn    => encodeNNN 0xA#4 nnn
  | .jpV0 nnn   => encodeNNN 0xB#4 nnn
  | .rnd x kk   => encodeXKK 0xC#4 x kk
  | .drw x y n  => encodeXYN 0xD#4 x y (nibble n)
  | .skp x      => encodeXKK 0xE#4 x 0x9E#8
  | .sknp x     => encodeXKK 0xE#4 x 0xA1#8
  | .ldVDt x    => encodeXKK 0xF#4 x 0x07#8
  | .ldK x      => encodeXKK 0xF#4 x 0x0A#8
  | .ldDtV x    => encodeXKK 0xF#4 x 0x15#8
  | .ldStV x    => encodeXKK 0xF#4 x 0x18#8
  | .addI x     => encodeXKK 0xF#4 x 0x1E#8
  | .ldF x      => encodeXKK 0xF#4 x 0x29#8
  | .ldB x      => encodeXKK 0xF#4 x 0x33#8
  | .ldMemV x   => encodeXKK 0xF#4 x 0x55#8
  | .ldVMem x   => encodeXKK 0xF#4 x 0x65#8

/-- The instruction as an option, `none` where the decoder answers a decode fault. -/
def Decoded.instr? : Decoded → Option Instr
  | .op i => some i
  | .decodeFault _ => none

/-- The instruction word whose low `nbits` bits are those of `w`, every bit above them 0. -/
def tableWord (nbits w : Nat) : Word := BitVec.ofNat 16 (w % 2 ^ nbits)

/-- What the decoder, under the default configuration (the one `State.reset` has), reads from a row's
word laid out as memory holds it, high byte first (R52); `none` on a decode fault. The words of the SYS
row are decode faults there, as R88 says (log entry 9). -/
def decodeTableWord (nbits w : Nat) : Option Instr :=
  let t := tableWord nbits w
  (decode Config.default (wordOfBytes (highByte t) (lowByte t))).instr?

end Sys2Proof
end

