-- ==== Sys2Proof/Machine/State.lean ====
section
/-! DEFINITION. The Machine State (10_state.md R20), its reset value (R39), the fault taxonomy
(60_exceptions.md R208) and the refusals. Four fields are the model's own and not the spec's Machine State:
`cfg`, `outcome`, `draws`, `written` (log entries 1 to 4). -/

namespace Sys2Proof.Machine

/-- The outcome of a successful step: {Continue, RedrawRequested, AwaitInput} (40_engine.md R106). -/
inductive StepOutcome where
  | continued | redrawRequested | awaitInput
  deriving DecidableEq, Repr

/-- The registers INIT_REG_POLICY speaks of: V0..VF, I, DT, ST (10_state.md R39). -/
inductive Reg where
  | v (x : RegIdx) | index | dt | st
  deriving DecidableEq, Repr

/-- Which of the registers of R39 an instruction has written since construction. Read under
INIT_REG_POLICY = fault_on_unwritten only (log entry 4). -/
structure Written where
  v     : Vector Bool 16
  index : Bool
  dt    : Bool
  st    : Bool
  deriving DecidableEq, Repr

/-- Whether one register is marked written. -/
def Written.has (w : Written) : Reg → Bool
  | .v x   => w.v[x]
  | .index => w.index
  | .dt    => w.dt
  | .st    => w.st

/-- The Machine State of R20 and the model's own fields. -/
structure State where
  /-- 4096 bytes, as the cells that differ from what an unlisted address reads as (R20; 20_memory.md R50). -/
  mem     : List Host.Cell
  /-- V0..VF (R22); VF is the only flag (R25). -/
  v       : Vector Byte 16
  /-- I, the index register (R26). -/
  index   : Word
  /-- PC, the address of the instruction being executed (R27). -/
  pc      : Word
  /-- The 16 slots of return addresses (R29). -/
  stack   : Vector Word 16
  /-- SP, the number of live entries, 0..15 (R29). -/
  sp      : Fin 16
  /-- DT, the delay timer (R31). -/
  dt      : Byte
  /-- ST, the sound timer (R31). -/
  st      : Byte
  /-- keys[0..15], true meaning pressed (R33). -/
  keys    : Vector Bool 16
  /-- disp[0..2047]: bit y*64 + x is pixel (x, y), true meaning set (R34; log entry 14). -/
  disp    : BitVec 2048
  /-- The configuration of 00_scope.md R9, fixed for a run: no step writes it (R21; log entry 1). -/
  cfg     : Config
  /-- The outcome of the last successful step, an output no step reads (40_engine.md R113; log entry 2). -/
  outcome : StepOutcome
  /-- How many random bytes the core has requested (60_exceptions.md R225; log entry 3). -/
  draws   : Nat
  /-- The marks of INIT_REG_POLICY (R39; log entry 4). -/
  written : Written
  deriving DecidableEq, Repr

/-- Why a step of the core raises the fault `Unspecified` (60_exceptions.md R205). -/
inductive UnspecifiedReason where
  /-- A store below 0x050 under FONT_WRITE_POLICY = fault (20_memory.md R59). -/
  | fontRegionWrite
  /-- A key skip with Vx above 0xF under KEY_INDEX_POLICY = fault (45_keypad_timer.md R190). -/
  | keyIndexRange
  /-- A read of V, I, DT or ST before its first write under INIT_REG_POLICY = fault_on_unwritten (R39). -/
  | uninitializedRead
  deriving DecidableEq, Repr

/-- What every fault records: the PC of the faulting instruction and the word when the fetch succeeded
(60_exceptions.md R209). -/
structure FaultSite where
  pc   : Word
  word : Option Word
  deriving DecidableEq, Repr

/-- The closed fault taxonomy of 60_exceptions.md R208. Each is safe: the spec itself ends the step there,
with the state as it was (R108), and the host returns to it if it steps again. -/
inductive Fault where
  /-- Code 1 (R201). Raised by `step` on an illegal word, and by SYS under SYS_POLICY = decode_fault. Safe. -/
  | decodeFault (site : FaultSite) (word : Word)
  /-- Code 2 (R202). Raised by CALL at SP = 15. Safe. -/
  | stackOverflow (site : FaultSite) (sp : Fin 16)
  /-- Code 3 (R203). Raised by RET at SP = 0. Safe. -/
  | stackUnderflow (site : FaultSite) (sp : Fin 16)
  /-- Code 4 (R204). Raised by the fetch, DRW, LD B, LD [I],Vx and LD Vx,[I] past 0xFFF. Safe. -/
  | outOfBoundsMemoryAccess (site : FaultSite) (base length : Nat)
  /-- Code 5 (R205). Raised by the stores, the key skips and every register read, per parameter. Safe. -/
  | unspecified (site : FaultSite) (reason : UnspecifiedReason)
  deriving DecidableEq, Repr

/-- What the model does not run. -/
inductive Refusal where
  /-- An instruction without a meaning yet, raised by `exec`'s arms only. Safe. No arm uses it. -/
  | notModelled (mnemonic : String)
  /-- `load` of an image longer than 3584 bytes (70_reset_and_hazards.md R241). Safe: the spec refuses it. -/
  | imageTooLong (length : Nat)
  deriving DecidableEq, Repr

/-- Every mark of R39 off: after construction no instruction has written a register. -/
def Written.nothing : Written where
  v     := Vector.replicate 16 false
  index := false
  dt    := false
  st    := false

/-- Construction under a configuration: the table of R39 (70_reset_and_hazards.md R240). The zeros of V, I,
stack, SP, DT, ST and keys are the spec's decision D25 (log entry 6). -/
def State.construct (cfg : Config) : State where
  mem     := []
  v       := Vector.replicate 16 0
  index   := 0
  pc      := 0x200
  stack   := Vector.replicate 16 0
  sp      := 0
  dt      := 0
  st      := 0
  keys    := Vector.replicate 16 false
  disp    := 0
  cfg     := cfg
  outcome := .continued
  draws   := 0
  written := Written.nothing

/-- The machine right after reset, which on this hardware is construction (R240), in the default
configuration. -/
def State.reset : State := State.construct Config.default

end Sys2Proof.Machine
end

