-- ==== Sys2Proof/Machine/Ops.lean ====
section
/-! DEFINITION. The named operations over memory and registers, fetching a word, and raising a fault, on
which every meaning is written: 20_memory.md R52 to R59, 40_engine.md R102, R103, R106, R108,
60_exceptions.md R200, R205, R209. -/

namespace Sys2Proof.Machine

/-- What a meaning, and a step, answers. -/
abbrev Result := Host.Outcome State Fault Refusal

/-! ### Memory -/

/-- What an address reads as when no cell lists it: the construction contents of 10_state.md R39, the font
table below 0x050 and 0x00 from there on (log entry 7). -/
def Memory.blank (font : FontTable) (a : Nat) : Byte := font[a]?.getD 0

/-- The byte at an address. -/
def Memory.read (font : FontTable) (m : List Host.Cell) (a : Nat) : Byte :=
  match m with
  | [] => Memory.blank font a
  | (b, u) :: rest => if a = b then u else Memory.read font rest a

/-- One byte written, in canonical form: the list stays sorted, and a byte equal to what the address reads
as unlisted is not listed. -/
def Memory.write (font : FontTable) (m : List Host.Cell) (a : Nat) (val : Byte) : List Host.Cell :=
  match m with
  | [] => if val = Memory.blank font a then [] else [(a, val)]
  | (b, u) :: rest =>
    if a < b then if val = Memory.blank font a then (b, u) :: rest else (a, val) :: (b, u) :: rest
    else if a = b then if val = Memory.blank font a then rest else (a, val) :: rest
    else (b, u) :: Memory.write font rest a val

/-- The canonical form from address `lo` on: strictly rising addresses inside memory, no entry equal to
what its address reads as unlisted. -/
def Memory.wfFrom (font : FontTable) (lo : Nat) : List Host.Cell → Bool
  | [] => true
  | (a, u) :: rest =>
    decide (lo ≤ a) && decide (a < memSize) && u != Memory.blank font a && Memory.wfFrom font (a + 1) rest

/-- The canonical form of a memory. -/
def Memory.wf (font : FontTable) (m : List Host.Cell) : Bool := Memory.wfFrom font 0 m

/-- `mem[a]`. -/
def State.byte (s : State) (a : Nat) : Byte := Memory.read s.cfg.fontTable s.mem a

/-- `mem[a] <- b`, with no check: the checks are those of `memWrite`. -/
def State.setByte (s : State) (a : Nat) (b : Byte) : State :=
  { s with mem := Memory.write s.cfg.fontTable s.mem a b }

/-- `mem[a+k] <- bs[k]` for each byte of the list. -/
def State.setBytes (s : State) (a : Nat) : List Byte → State
  | [] => s
  | b :: bs => (s.setByte a b).setBytes (a + 1) bs

/-- The bytes at a, a+1, ..., a+n-1, with no check. -/
def State.bytes (s : State) (a n : Nat) : List Byte := (List.range n).map fun k => s.byte (a + k)

/-- The range check of 20_memory.md R55, on unbounded naturals (R54). -/
def inBounds (a n : Nat) : Bool := n == 0 || decide (a + n ≤ memSize)

/-! ### Fetch and faults -/

/-- Fetch16 at PC, big-endian, `none` where the range check fails (40_engine.md R102). PC is not reduced. -/
def State.fetch? (s : State) : Option Word :=
  if inBounds s.pc.toNat 2 then some (wordOfBytes (s.byte s.pc.toNat) (s.byte (s.pc.toNat + 1))) else none

/-- What a fault raised in this state records of it (60_exceptions.md R209; log entry 13). -/
def State.site (s : State) : FaultSite := ⟨s.pc, s.fetch?⟩

/-- TAKING AN EXCEPTION on this hardware: `raise K(info)` of 00_scope.md R13 ends the step with a fault
returned to the host. Nothing is saved, no mode changes, control goes nowhere (60_exceptions.md R200,
R209); there is no return from it (R210). -/
def State.raise (s : State) (k : FaultSite → Fault) : Result := .fault (k s.site)

/-- The codes of 60_exceptions.md R208. -/
def Fault.code : Fault → Nat
  | .decodeFault _ _ => 1
  | .stackOverflow _ _ => 2
  | .stackUnderflow _ _ => 3
  | .outOfBoundsMemoryAccess _ _ _ => 4
  | .unspecified _ _ => 5

/-- MemRead of R55, its bytes given to the rest of the instruction. -/
def State.memRead (s : State) (a n : Nat) (k : List Byte → Result) : Result :=
  if inBounds a n then k (s.bytes a n) else s.raise (.outOfBoundsMemoryAccess · a n)

/-- MemWrite of R55: the range check and the font check (R59) on the whole range before any byte (R56). -/
def State.memWrite (s : State) (a : Nat) (bs : List Byte) (k : State → Result) : Result :=
  if !inBounds a bs.length then s.raise (.outOfBoundsMemoryAccess · a bs.length)
  else if s.cfg.fontWritePolicy = .fault ∧ 0 < bs.length ∧ a < fontEnd then
    s.raise (.unspecified · .fontRegionWrite)
  else k (s.setBytes a bs)

/-! ### Registers -/

/-- Whether a register may be read: always, unless INIT_REG_POLICY = fault_on_unwritten and it holds no
value yet (10_state.md R39). -/
def State.readable (s : State) (r : Reg) : Bool := s.cfg.initRegPolicy == .zero || s.written.has r

/-- The reads of an instruction, checked before its other checks: `Unspecified(UninitializedRead)` if one
holds no value (60_exceptions.md R205; log entry 5). -/
def State.reading (s : State) (rs : List Reg) (k : Result) : Result :=
  if rs.all s.readable then k else s.raise (.unspecified · .uninitializedRead)

/-- `V[x]`. -/
def State.getV (s : State) (x : RegIdx) : Byte := s.v[x]

/-- `V[x] <- b`. -/
def State.setV (s : State) (x : RegIdx) (b : Byte) : State :=
  { s with v := s.v.set x b, written := { s.written with v := s.written.v.set x true } }

/-- `I <- w`. -/
def State.setIndex (s : State) (w : Word) : State :=
  { s with index := w, written := { s.written with index := true } }

/-- `DT <- b`. -/
def State.setDt (s : State) (b : Byte) : State :=
  { s with dt := b, written := { s.written with dt := true } }

/-- `ST <- b`. -/
def State.setSt (s : State) (b : Byte) : State :=
  { s with st := b, written := { s.written with st := true } }

/-- The values V[0], V[1], ..., V[n-1] (n at most 16). -/
def State.registers (s : State) (n : Nat) : List Byte := (List.range n).map fun k => s.getV (Fin.ofNat 16 k)

/-- `V[k] <- bs[0]`, `V[k+1] <- bs[1]`, ... in ascending order. -/
def State.setRegisters (s : State) (k : Nat) : List Byte → State
  | [] => s
  | b :: bs => (s.setV (Fin.ofNat 16 k) b).setRegisters (k + 1) bs

/-- The registers V0..Vx as reads. -/
def regsUpTo (x : RegIdx) : List Reg := (List.range (x.val + 1)).map fun k => .v (Fin.ofNat 16 k)

/-! ### The end of a step -/

/-- `next`, the address of the instruction after the current one (40_engine.md R103; log entry 15). -/
def State.next (s : State) : Word := s.pc + 2

/-- The step completes with this PC and this outcome (R103, R106). -/
def State.goto (s : State) (target : Word) (o : StepOutcome := .continued) : Result :=
  .next { s with pc := target, outcome := o }

/-- `PC <- next`. -/
def State.advance (s : State) (o : StepOutcome := .continued) : Result := s.goto s.next o

/-- `if c then PC <- next + 2 else PC <- next`. -/
def State.skipIf (s : State) (c : Bool) : Result := s.goto (if c then s.next + 2 else s.next)

/-- A word stored where the next step fetches; nothing where that fetch is out of bounds. -/
def State.placeWord (s : State) (w : Word) : State :=
  if inBounds s.pc.toNat 2 then s.setBytes s.pc.toNat [highByte w, lowByte w] else s

end Sys2Proof.Machine
end

