-- ==== Sys2Proof/Machine/Flags.lean ====
section
/-! DEFINITION. Every result and every flag the spec computes for VF (10_state.md R25; 43_arith.md R160,
R166 to R170), on unbounded naturals narrowed at the end (00_scope.md R10), and the write of both. -/

namespace Sys2Proof.Machine

/-- A flag value: 1 or 0. -/
def flagOf (c : Bool) : Byte := if c then 1 else 0

/-- The low 8 bits of the 9-bit sum (R166), which ADD Vx, kk takes too (R161). -/
def addResult (a b : Byte) : Byte := BitVec.ofNat 8 (a.toNat + b.toNat)

/-- Carry: 1 iff the sum passes 0xFF (R166). -/
def carryFlag (a b : Byte) : Byte := flagOf (0xFF < a.toNat + b.toNat)

/-- The wraparound difference a - b on integers, mod 256 (R167). -/
def subResult (a b : Byte) : Byte := BitVec.ofInt 8 ((a.toNat : Int) - (b.toNat : Int))

/-- NOT borrow of a - b: 1 iff a >= b (R167). -/
def noBorrowFlag (a b : Byte) : Byte := flagOf (b.toNat ≤ a.toNat)

/-- The value shifted right by one (R168). -/
def shrResult (a : Byte) : Byte := a >>> 1

/-- The bit a right shift loses, bit 0 (R168). -/
def shrFlag (a : Byte) : Byte := flagOf (a.getLsbD 0)

/-- The value shifted left by one, mod 256 (R170). -/
def shlResult (a : Byte) : Byte := a <<< 1

/-- The bit a left shift loses, bit 7 (R170). -/
def shlFlag (a : Byte) : Byte := flagOf (a.getLsbD 7)

/-- `setWithFlag(x, result, flag)` of R160: the two writes in the order VF_ORDER gives. -/
def State.setWithFlag (s : State) (x : RegIdx) (result flag : Byte) : State :=
  match s.cfg.vfOrder with
  | .flagLast   => (s.setV x result).setV flagReg flag
  | .resultLast => (s.setV flagReg flag).setV x result

/-- The write of OR, AND and XOR: VF too under LOGIC_VF_RESET (R162). -/
def State.setLogic (s : State) (x : RegIdx) (result : Byte) : State :=
  if s.cfg.logicVfReset then s.setWithFlag x result 0 else s.setV x result

end Sys2Proof.Machine
end

