-- ==== Sys2Proof/Machine/Operands.lean ====
section
/-! DEFINITION. Every operand form: the register an instruction reads under its parameter, the key index,
the font digit, the BCD digits, and the sprite's pixels (30_encoding.md R84; 41_control_flow.md R128;
42_load_index.md R144 to R147; 43_arith.md R168; 44_display.md R181; 45_keypad_timer.md R190, R193). -/

namespace Sys2Proof.Machine

/-- The register SHR and SHL shift: Vx, or Vy under SHIFT_SOURCE = vy (R168, R170). -/
def shiftSourceReg (cfg : Config) (x y : RegIdx) : RegIdx :=
  match cfg.shiftSource with
  | .vx => x
  | .vy => y

/-- The register JP V0 adds: V0, or Vx with x = nnn[11:8] under JUMP_OFFSET_REG = vx (R128). -/
def jumpOffsetReg (cfg : Config) (nnn : Addr12) : RegIdx :=
  match cfg.jumpOffsetReg with
  | .v0 => 0
  | .vx => (nnn.extractLsb' 8 4).toFin

/-- `keyIndex(v)` of R190; `none` where it raises `Unspecified(KeyIndexRange)`. -/
def keyIndex? (cfg : Config) (b : Byte) : Option (Fin 16) :=
  if b.toNat ≤ 0xF then some (Fin.ofNat 16 b.toNat)
  else match cfg.keyIndexPolicy with
    | .lowNibble => some (Fin.ofNat 16 (b &&& 0x0F).toNat)
    | .fault     => none

/-- The digit of LD F: Vx, or its low nibble under FONT_DIGIT_MODE = low_nibble (R144). -/
def fontDigit (cfg : Config) (b : Byte) : Byte :=
  match cfg.fontDigitMode with
  | .unmasked  => b
  | .lowNibble => b &&& 0x0F

/-- The address of a digit's glyph, 5 * d (R144). -/
def glyphAddress (d : Byte) : Word := BitVec.ofNat 16 (5 * d.toNat)

/-- Hundreds, tens and ones of a byte (R145). -/
def bcdDigits (b : Byte) : List Byte :=
  [BitVec.ofNat 8 (b.toNat / 100), BitVec.ofNat 8 (b.toNat % 100 / 10), BitVec.ofNat 8 (b.toNat % 10)]

/-- I after LD [I],Vx and LD Vx,[I], per LOADSTORE_I_INCREMENT (R146). -/
def indexAfter (cfg : Config) (index : Word) (x : RegIdx) : Word :=
  match cfg.loadStoreIncrement with
  | .none   => index
  | .xPlus1 => BitVec.ofNat 16 (index.toNat + x.val + 1)
  | .x      => BitVec.ofNat 16 (index.toNat + x.val)

/-- The write of I after the transfers: none where it stays (10_state.md R26). -/
def State.stepIndex (s : State) (x : RegIdx) : State :=
  match s.cfg.loadStoreIncrement with
  | .none => s
  | _     => s.setIndex (indexAfter s.cfg s.index x)

/-- The lowest-indexed pressed key, if any is pressed (R193). -/
def lowestKey? (keys : Vector Bool 16) : Option (Fin 16) := (List.finRange 16).find? fun k => keys[k]

/-- The display index y*64 + x of a pixel, with the wraparound of R181 (10_state.md R34). -/
def pixelIndex (x y : Nat) : Nat := y % 32 * 64 + x % 64

/-- The display being drawn on, and whether a set pixel has been turned off so far. -/
abbrev Drawing := BitVec 2048 × Bool

/-- One bit of a sprite row: column `c` is bit 7 - c, and a set bit toggles its pixel (R181). -/
def drawBit (ox oy r : Nat) (row : Byte) (d : Drawing) (c : Nat) : Drawing :=
  let p := pixelIndex (ox + c) (oy + r)
  if row.getLsbD (7 - c) then (d.1 ^^^ BitVec.twoPow 2048 p, d.2 || d.1.getLsbD p) else d

/-- One sprite row, most significant bit first (R181). -/
def drawRow (ox oy r : Nat) (row : Byte) (d : Drawing) : Drawing :=
  (List.range 8).foldl (drawBit ox oy r row) d

/-- The rows of a sprite from row `r` on (R181). -/
def drawRows (ox oy : Nat) : Nat → List Byte → Drawing → Drawing
  | _, [], d => d
  | r, row :: rows, d => drawRows ox oy (r + 1) rows (drawRow ox oy r row d)

/-- The sprite drawn at an origin: the display after, and the collision (R181). -/
def drawSprite (ox oy : Byte) (rows : List Byte) (disp : BitVec 2048) : Drawing :=
  drawRows ox.toNat oy.toNat 0 rows (disp, false)

end Sys2Proof.Machine
end

