-- ==== Sys2Proof/Machine/Arith.lean ====
section
/-! DEFINITION. The meanings of the arithmetic, logic, shift and random instructions
(43_arith.md R161 to R171). Every operand is read before any write (40_engine.md R105). -/

namespace Sys2Proof.Machine

/-- ADD Vx, kk (R161): VF untouched. -/
def execAddImm (x : RegIdx) (kk : Byte) (s : State) : Result :=
  s.reading [.v x] (s.setV x (addResult (s.getV x) kk)).advance

/-- OR Vx, Vy (R163). -/
def execOr (x y : RegIdx) (s : State) : Result :=
  s.reading [.v x, .v y] (s.setLogic x (s.getV x ||| s.getV y)).advance

/-- AND Vx, Vy (R164). -/
def execAnd (x y : RegIdx) (s : State) : Result :=
  s.reading [.v x, .v y] (s.setLogic x (s.getV x &&& s.getV y)).advance

/-- XOR Vx, Vy (R165). -/
def execXor (x y : RegIdx) (s : State) : Result :=
  s.reading [.v x, .v y] (s.setLogic x (s.getV x ^^^ s.getV y)).advance

/-- ADD Vx, Vy (R166). -/
def execAddReg (x y : RegIdx) (s : State) : Result :=
  let a := s.getV x
  let b := s.getV y
  s.reading [.v x, .v y] (s.setWithFlag x (addResult a b) (carryFlag a b)).advance

/-- SUB Vx, Vy (R167). -/
def execSub (x y : RegIdx) (s : State) : Result :=
  let a := s.getV x
  let b := s.getV y
  s.reading [.v x, .v y] (s.setWithFlag x (subResult a b) (noBorrowFlag a b)).advance

/-- SUBN Vx, Vy (R169): the difference and flag of Vy - Vx. -/
def execSubn (x y : RegIdx) (s : State) : Result :=
  let a := s.getV x
  let b := s.getV y
  s.reading [.v x, .v y] (s.setWithFlag x (subResult b a) (noBorrowFlag b a)).advance

/-- SHR Vx (, Vy) (R168). -/
def execShr (x y : RegIdx) (s : State) : Result :=
  let r := shiftSourceReg s.cfg x y
  s.reading [.v r] (s.setWithFlag x (shrResult (s.getV r)) (shrFlag (s.getV r))).advance

/-- SHL Vx (, Vy) (R170). -/
def execShl (x y : RegIdx) (s : State) : Result :=
  let r := shiftSourceReg s.cfg x y
  s.reading [.v r] (s.setWithFlag x (shlResult (s.getV r)) (shlFlag (s.getV r))).advance

/-- RND with the byte the host answers: the rule R171 with `r` as the argument of `step(s, r)` of R101. One
request is counted (60_exceptions.md R225). -/
def randomMasked (x : RegIdx) (kk r : Byte) (s : State) : Result :=
  { s.setV x (r &&& kk) with draws := s.draws + 1 }.advance

/-- RND Vx, kk (R171): the byte of this request is the free value (log entry 3). -/
def execRnd (x : RegIdx) (kk : Byte) (s : State) : Result := randomMasked x kk (Config.randomByte s.draws) s

end Sys2Proof.Machine
end

