-- ==== Sys2Proof/Machine/ControlFlow.lean ====
section
/-! DEFINITION. The meanings of SYS, RET, JP, CALL, the skips on registers and JP V0
(41_control_flow.md R120 to R128). None writes VF or any general register. -/

namespace Sys2Proof.Machine

/-- SYS nnn (R120): a no-op under SYS_POLICY = ignore. Under decode_fault the decoder never gives it to a
step; run on its own it is the decode fault of its word (log entry 12). -/
def execSys (nnn : Addr12) (s : State) : Result :=
  match s.cfg.sysPolicy with
  | .ignore      => s.advance
  | .decodeFault => s.raise (.decodeFault · (encode (.sys nnn)))

/-- RET (R121): decrement, then read the slot just released (90_conflicts.md C1). -/
def execRet (s : State) : Result :=
  if s.sp = 0 then s.raise (.stackUnderflow · s.sp)
  else { s with sp := s.sp - 1 }.goto s.stack[s.sp - 1]

/-- JP nnn (R122). -/
def execJp (nnn : Addr12) (s : State) : Result := s.goto (nnn.setWidth 16)

/-- CALL nnn (R123): the fault at SP = 15, else push `next`. -/
def execCall (nnn : Addr12) (s : State) : Result :=
  if s.sp = 15 then s.raise (.stackOverflow · s.sp)
  else { s with stack := s.stack.set s.sp s.next, sp := s.sp + 1 }.goto (nnn.setWidth 16)

/-- SE Vx, kk (R124). -/
def execSeImm (x : RegIdx) (kk : Byte) (s : State) : Result :=
  s.reading [.v x] (s.skipIf (s.getV x == kk))

/-- SNE Vx, kk (R125). -/
def execSneImm (x : RegIdx) (kk : Byte) (s : State) : Result :=
  s.reading [.v x] (s.skipIf (s.getV x != kk))

/-- SE Vx, Vy (R126). -/
def execSeReg (x y : RegIdx) (s : State) : Result :=
  s.reading [.v x, .v y] (s.skipIf (s.getV x == s.getV y))

/-- SNE Vx, Vy (R127). -/
def execSneReg (x y : RegIdx) (s : State) : Result :=
  s.reading [.v x, .v y] (s.skipIf (s.getV x != s.getV y))

/-- JP V0, nnn (R128): the natural sum, at most 0x10FE, so the 16-bit sum does not wrap. -/
def execJpV0 (nnn : Addr12) (s : State) : Result :=
  let r := jumpOffsetReg s.cfg nnn
  s.reading [.v r] (s.goto (nnn.setWidth 16 + (s.getV r).setWidth 16))

end Sys2Proof.Machine
end

