-- ==== Sys2Proof/Machine/Display.lean ====
section
/-! DEFINITION. The meanings of CLS and DRW (44_display.md R180, R181). -/

namespace Sys2Proof.Machine

/-- CLS (R180): the outcome is Continue, VF is not written. -/
def execCls (s : State) : Result := { s with disp := 0 }.advance

/-- DRW Vx, Vy, n (R181): the origin and the rows are read before VF is written. With n = 0 nothing is read
at I (decision D23), so I is no register read then (log entry 5). -/
def execDrw (x y : RegIdx) (n : Fin 16) (s : State) : Result :=
  s.reading (if n = 0 then [.v x, .v y] else [.v x, .v y, .index])
    (s.memRead s.index.toNat n.val fun rows =>
      let d := drawSprite (s.getV x) (s.getV y) rows s.disp
      ({ s with disp := d.1 }.setV flagReg (flagOf d.2)).advance .redrawRequested)

end Sys2Proof.Machine
end

