-- ==== Sys2Proof/Machine/KeypadTimer.lean ====
section
/-! DEFINITION. The meanings of the key skips, the wait for a key and the timer transfers
(45_keypad_timer.md R190 to R196). -/

namespace Sys2Proof.Machine

/-- The key state the key skips test, or the fault of R190. -/
def State.withKey (s : State) (x : RegIdx) (k : Bool → Result) : Result :=
  match keyIndex? s.cfg (s.getV x) with
  | some i => k s.keys[i]
  | none   => s.raise (.unspecified · .keyIndexRange)

/-- SKP Vx (R191). -/
def execSkp (x : RegIdx) (s : State) : Result :=
  s.reading [.v x] (s.withKey x fun pressed => s.skipIf pressed)

/-- SKNP Vx (R192). -/
def execSknp (x : RegIdx) (s : State) : Result :=
  s.reading [.v x] (s.withKey x fun pressed => s.skipIf (!pressed))

/-- LD Vx, K (R193): the lowest pressed key, or AwaitInput with nothing written and PC where it is. -/
def execLdK (x : RegIdx) (s : State) : Result :=
  match lowestKey? s.keys with
  | some k => (s.setV x (BitVec.ofNat 8 k.val)).advance
  | none   => s.goto s.pc .awaitInput

/-- LD Vx, DT (R194). -/
def execLdVDt (x : RegIdx) (s : State) : Result := s.reading [.dt] (s.setV x s.dt).advance

/-- LD DT, Vx (R195). -/
def execLdDtV (x : RegIdx) (s : State) : Result := s.reading [.v x] (s.setDt (s.getV x)).advance

/-- LD ST, Vx (R196). -/
def execLdStV (x : RegIdx) (s : State) : Result := s.reading [.v x] (s.setSt (s.getV x)).advance

end Sys2Proof.Machine
end

