-- ==== Sys2Proof/Machine/LoadIndex.lean ====
section
/-! DEFINITION. The meanings of the loads, the index register instructions and the memory transfers
(42_load_index.md R140 to R147). -/

namespace Sys2Proof.Machine

/-- LD Vx, kk (R140). -/
def execLdImm (x : RegIdx) (kk : Byte) (s : State) : Result := (s.setV x kk).advance

/-- LD Vx, Vy (R141). -/
def execLdReg (x y : RegIdx) (s : State) : Result := s.reading [.v y] (s.setV x (s.getV y)).advance

/-- LD I, nnn (R142). -/
def execLdI (nnn : Addr12) (s : State) : Result := (s.setIndex (nnn.setWidth 16)).advance

/-- ADD I, Vx (R143): mod 2^16, VF not written. -/
def execAddI (x : RegIdx) (s : State) : Result :=
  s.reading [.index, .v x] (s.setIndex (BitVec.ofNat 16 (s.index.toNat + (s.getV x).toNat))).advance

/-- LD F, Vx (R144). -/
def execLdF (x : RegIdx) (s : State) : Result :=
  s.reading [.v x] (s.setIndex (glyphAddress (fontDigit s.cfg (s.getV x)))).advance

/-- LD B, Vx (R145). -/
def execLdB (x : RegIdx) (s : State) : Result :=
  s.reading [.v x, .index] (s.memWrite s.index.toNat (bcdDigits (s.getV x)) fun t => t.advance)

/-- LD [I], Vx (R146): V0..Vx to I..I+x, then I per LOADSTORE_I_INCREMENT. -/
def execLdMemV (x : RegIdx) (s : State) : Result :=
  s.reading (.index :: regsUpTo x)
    (s.memWrite s.index.toNat (s.registers (x.val + 1)) fun t => (t.stepIndex x).advance)

/-- LD Vx, [I] (R147): I..I+x to V0..Vx, then I per LOADSTORE_I_INCREMENT. -/
def execLdVMem (x : RegIdx) (s : State) : Result :=
  s.reading [.index]
    (s.memRead s.index.toNat (x.val + 1) fun bs => ((s.setRegisters 0 bs).stepIndex x).advance)

end Sys2Proof.Machine
end

