-- ==== Sys2Proof/Machine/Step.lean ====
section
/-! DEFINITION. One step: fetch, decode, execute (40_engine.md R101). -/

namespace Sys2Proof.Machine

/-- `step(s, r)` of R101: the fetch range check (R102), then decode (R104), then the handler (R105), in the
order of R109. -/
def step (s : State) : Host.Outcome State Fault Refusal :=
  match s.fetch? with
  | none => s.raise (.outOfBoundsMemoryAccess · s.pc.toNat 2)
  | some w =>
    match decode s.cfg w with
    | .decodeFault w => s.raise (.decodeFault · w)
    | .op i => exec i s

/-- The state whose next step fetches this word: the word stored big-endian at PC. After construction this
stands for a load of that one word at 0x200 (70_reset_and_hazards.md R241; log entry 11). -/
def State.withFetchWord (s : State) (nbits w : Nat) : State := s.placeWord (tableWord nbits w)

end Sys2Proof.Machine
end

