-- ==== Sys2Proof/Machine/HostEvents.lean ====
section
/-! DEFINITION. What the host does to the core between steps, and what it can read there: load, timer ticks,
key changes, display, sound (40_engine.md R112 to R114; 60_exceptions.md R212 to R227;
70_reset_and_hazards.md R241, R242). -/

namespace Sys2Proof.Machine

/-- `load(image)` (70_reset_and_hazards.md R241): `mem[0x200 + k] <- image[k]`; an image above 3584 bytes is
refused with nothing written. The host calls it once, before the first step (R242; log entry 11). -/
def State.load (s : State) (image : List Byte) : Result :=
  if image.length ≤ maxImage then .next (s.setBytes progBase image) else .refused (.imageTooLong image.length)

/-- One saturating decrement (10_state.md R31). -/
def decay (t : Byte) : Byte := if 0 < t.toNat then t - 1 else 0

/-- `timer_tick` (60_exceptions.md R218). It neither reads nor marks a register in the sense of
INIT_REG_POLICY (log entry 4). -/
def State.timerTick (s : State) : State := { s with dt := decay s.dt, st := decay s.st }

/-- `set_key(k, b)` (R222): a press with `true`, a release with `false` (R224). -/
def State.setKey (s : State) (k : Fin 16) (b : Bool) : State := { s with keys := s.keys.set k b }

/-- Every key false: the clearing of KEY_MODEL = edge (R223). -/
def State.clearKeys (s : State) : State := { s with keys := Vector.replicate 16 false }

/-- The host's duty after each step, a faulting one included: under KEY_MODEL = edge it clears every key (R223,
R227, decision D38; log entry 16). -/
def State.afterStep (s : State) : State :=
  match s.cfg.keyModel with
  | .level => s
  | .edge  => s.clearKeys

/-- `sound_active = (ST != 0)`, the sound output (10_state.md R32; log entry 18). Under INIT_REG_POLICY =
fault_on_unwritten an ST that holds no value counts as the 0 it has, with no check (log entry 20, DESIGN CHOICE). -/
def State.soundActive (s : State) : Bool := s.st != 0

/-- The pixel (x, y), as the host reads the display (10_state.md R34; 60_exceptions.md R226). -/
def State.pixel (s : State) (x y : Nat) : Bool := s.disp.getLsbD (y * 64 + x)

/-- The requests of the host after the load (40_engine.md R112). -/
inductive HostEvent where
  | step
  | timerTick
  | setKey (k : Fin 16) (b : Bool)
  deriving DecidableEq, Repr

/-- What the core gives back to a request (40_engine.md R113; the last column of 60_exceptions.md R227). -/
inductive Reply where
  | nothing
  | outcome (o : StepOutcome)
  | fault (f : Fault)
  | refused (r : Refusal)
  deriving DecidableEq, Repr

/-- What a step gives back to the host. -/
def Reply.ofStep : Result → Reply
  | .next t    => .outcome t.outcome
  | .fault f   => .fault f
  | .refused r => .refused r

/-- The state a step leaves: a step that does not complete leaves the state as it was (40_engine.md R108). -/
def State.leftBy (s : State) : Result → State
  | .next t    => t
  | .fault _   => s
  | .refused _ => s

/-- What one request of the host gives back and leaves (R111, R213): a step, with the host's duty after it
whether or not it faults, or an event between steps. The host may issue them in any order and number (R213),
after a fault too (R227). -/
def perform (e : HostEvent) (s : State) : Reply × State :=
  match e with
  | .step       => (Reply.ofStep (step s), (s.leftBy (step s)).afterStep)
  | .timerTick  => (.nothing, s.timerTick)
  | .setKey k b => (.nothing, s.setKey k b)

/-- A self-jump at PC: a word 0x1nnn stored at address nnn, this spec's end of a run (40_engine.md R115). -/
def State.atSelfJump (s : State) : Bool :=
  s.fetch? == some (encode (.jp (s.pc.setWidth 12))) && decide (s.pc.toNat < memSize)

end Sys2Proof.Machine
end

