-- ==== Sys2Proof/Safety.lean ====
section
/-! DEFINITION. The terms claims are stated in: what a change leaves alone, which registers an instruction
reads and which fault it owes, the invariant of the machine, its reachable states, and runs inside a
subroutine. Written from the spec's tables, not from the meanings. -/

namespace Sys2Proof.Machine

/-! ### Frames -/

/-- One piece of state a frame speaks of. `outcome`, the step's result, is not among them: every step sets it. -/
inductive Component where
  | mem (a : Nat) | v (x : RegIdx) | index | pc | stack (j : Fin 16) | sp | dt | st
  | key (k : Fin 16) | pixel (p : Fin 2048) | cfg | draws
  deriving DecidableEq, Repr

/-- The component is the same in both states. A register of R39 comes with its mark. -/
def Component.same (s t : State) : Component → Prop
  | .mem a   => t.byte a = s.byte a
  | .v x     => t.getV x = s.getV x ∧ t.written.has (.v x) = s.written.has (.v x)
  | .index   => t.index = s.index ∧ t.written.has .index = s.written.has .index
  | .pc      => t.pc = s.pc
  | .stack j => t.stack[j] = s.stack[j]
  | .sp      => t.sp = s.sp
  | .dt      => t.dt = s.dt ∧ t.written.has .dt = s.written.has .dt
  | .st      => t.st = s.st ∧ t.written.has .st = s.written.has .st
  | .key k   => t.keys[k] = s.keys[k]
  | .pixel p => t.disp.getLsbD p = s.disp.getLsbD p
  | .cfg     => t.cfg = s.cfg
  | .draws   => t.draws = s.draws

/-- Everything but the components `change` allows is the same: every register, every flag, every byte of
memory, every pixel, the stack, the timers, the keys. -/
def Unchanged (change : Component → Prop) (s t : State) : Prop := ∀ c, ¬ change c → c.same s t

/-- `Unchanged` for a finite list of components that may change. -/
def UnchangedBut (changed : List Component) (s t : State) : Prop := Unchanged (· ∈ changed) s t

/-! ### Reads and faults -/

/-- Each of these registers holds a value to read (10_state.md R39): always so under INIT_REG_POLICY = zero. -/
def State.mayRead (s : State) (rs : List Reg) : Prop :=
  s.cfg.initRegPolicy = .zero ∨ ∀ r ∈ rs, s.written.has r = true

/-- The registers of R39 an instruction reads: the V, I, DT operands of its rule (log entry 5). -/
def Instr.reads (cfg : Config) : Instr → List Reg
  | .sys _ | .cls | .ret | .jp _ | .call _ | .ldImm _ _ | .ldI _ | .rnd _ _ | .ldK _ => []
  | .seImm x _ | .sneImm x _ | .addImm x _ | .skp x | .sknp x | .ldDtV x | .ldStV x | .ldF x => [.v x]
  | .seReg x y | .sneReg x y | .or x y | .and x y | .xor x y | .addReg x y | .sub x y | .subn x y =>
    [.v x, .v y]
  | .ldReg _ y => [.v y]
  | .shr x y | .shl x y => [.v (match cfg.shiftSource with | .vx => x | .vy => y)]
  | .jpV0 nnn => [.v (match cfg.jumpOffsetReg with | .v0 => 0 | .vx => Fin.ofNat 16 (nnn.toNat / 256))]
  | .drw x y n => if n = 0 then [.v x, .v y] else [.v x, .v y, .index]
  | .ldVDt _ => [.dt]
  | .addI x | .ldB x => [.v x, .index]
  | .ldMemV x => .index :: (List.range (x.val + 1)).map fun k => .v (Fin.ofNat 16 k)
  | .ldVMem _ => [.index]

/-- The registers of R39 an instruction writes when it completes (10_state.md R24, R26, R31, R37). -/
def Instr.writes (cfg : Config) (s : State) : Instr → List Reg
  | .sys _ | .cls | .ret | .jp _ | .call _ | .seImm _ _ | .sneImm _ _ | .seReg _ _ | .sneReg _ _ | .jpV0 _
  | .skp _ | .sknp _ | .ldB _ => []
  | .ldImm x _ | .addImm x _ | .ldReg x _ | .rnd x _ | .ldVDt x => [.v x]
  | .or x _ | .and x _ | .xor x _ => if cfg.logicVfReset then [.v x, .v 15] else [.v x]
  | .addReg x _ | .sub x _ | .shr x _ | .subn x _ | .shl x _ => [.v x, .v 15]
  | .drw _ _ _ => [.v 15]
  | .ldK x => if ∃ k : Fin 16, s.keys[k] = true then [.v x] else []
  | .ldDtV _ => [.dt]
  | .ldStV _ => [.st]
  | .ldI _ | .addI _ | .ldF _ => [.index]
  | .ldMemV _ => if cfg.loadStoreIncrement = .none then [] else [.index]
  | .ldVMem x =>
    (List.range (x.val + 1)).map (fun k => .v (Fin.ofNat 16 k)) ++
      if cfg.loadStoreIncrement = .none then [] else [.index]

/-- The fault of a range access at I that leaves memory, if it does (60_exceptions.md R204). -/
def rangeFault (s : State) (n : Nat) : Option Fault :=
  if 0 < n ∧ 0x1000 < s.index.toNat + n then
    some (.outOfBoundsMemoryAccess ⟨s.pc, s.fetch?⟩ s.index.toNat n) else none

/-- The fault of a store of `n` bytes at I, if any: the range first, then the font region (20_memory.md R55). -/
def storeFault (s : State) (n : Nat) : Option Fault :=
  match rangeFault s n with
  | some f => some f
  | none =>
    if s.index.toNat < 0x050 ∧ s.cfg.fontWritePolicy = .fault then
      some (.unspecified ⟨s.pc, s.fetch?⟩ .fontRegionWrite) else none

/-- The fault of a key index above 0xF, if any (45_keypad_timer.md R190). -/
def keyFault (s : State) (x : RegIdx) : Option Fault :=
  if 0xF < (s.getV x).toNat ∧ s.cfg.keyIndexPolicy = .fault then
    some (.unspecified ⟨s.pc, s.fetch?⟩ .keyIndexRange) else none

/-- The instruction's own fault, once its reads are allowed: the table of 60_exceptions.md R206 with the
conditions of R201 to R205. -/
def ownFault (i : Instr) (s : State) : Option Fault :=
  match i with
  | .sys nnn =>
    if s.cfg.sysPolicy = .ignore then none
    else some (.decodeFault ⟨s.pc, s.fetch?⟩ (BitVec.ofNat 16 nnn.toNat))
  | .ret  => if s.sp = 0 then some (.stackUnderflow ⟨s.pc, s.fetch?⟩ 0) else none
  | .call _ => if s.sp = 15 then some (.stackOverflow ⟨s.pc, s.fetch?⟩ 15) else none
  | .drw _ _ n => rangeFault s n.val
  | .ldB _ => storeFault s 3
  | .ldMemV x => storeFault s (x.val + 1)
  | .ldVMem x => rangeFault s (x.val + 1)
  | .skp x | .sknp x => keyFault s x
  | .cls | .jp _ | .seImm _ _ | .sneImm _ _ | .seReg _ _ | .ldImm _ _ | .addImm _ _ | .ldReg _ _ | .or _ _
  | .and _ _ | .xor _ _ | .addReg _ _ | .sub _ _ | .shr _ _ | .subn _ _ | .shl _ _ | .sneReg _ _ | .ldI _
  | .jpV0 _ | .rnd _ _ | .ldVDt _ | .ldK _ | .ldDtV _ | .ldStV _ | .addI _ | .ldF _ => none

/-- Whether a read of the instruction finds no value (60_exceptions.md R205, UninitializedRead). -/
def readsUnwritten (i : Instr) (s : State) : Bool :=
  s.cfg.initRegPolicy == .faultOnUnwritten && (Instr.reads s.cfg i).any fun r => !s.written.has r

/-- The one fault the handler of `i` owes in state `s`, or none (40_engine.md R109; 60_exceptions.md R206). -/
def owedFault (i : Instr) (s : State) : Option Fault :=
  if readsUnwritten i s then some (.unspecified ⟨s.pc, s.fetch?⟩ .uninitializedRead) else ownFault i s

/-- What a fault records of its place (60_exceptions.md R209). -/
def Fault.site : Fault → FaultSite
  | .decodeFault f _ | .stackOverflow f _ | .stackUnderflow f _ | .outOfBoundsMemoryAccess f _ _
  | .unspecified f _ => f

/-! ### Invariant, reachable states, runs -/

/-- The invariant of the machine: memory in canonical form; PC at most 0x10FE (10_state.md R28); every stack
slot at most 0x1000 and slot 15 never written (R29, R37); the font region as constructed unless the
configuration allows stores into it (20_memory.md R59). -/
structure Inv (s : State) : Prop where
  memory : Memory.wf s.cfg.fontTable s.mem = true
  pc     : s.pc.toNat ≤ 0x10FE
  slots  : ∀ j : Fin 16, s.stack[j].toNat ≤ 0x1000
  slot15 : s.stack[15] = 0
  font   : s.cfg.fontWritePolicy = .fault → ∀ a : Fin 80, s.byte a.val = s.cfg.fontTable[a]

/-- The states a run reaches (70_reset_and_hazards.md R242): construct, load once, then steps, timer ticks
and key changes in any order and number (60_exceptions.md R213), steps that fault included (R227). -/
inductive Reachable (cfg : Config) (image : List Byte) : State → Prop where
  | boot (s : State) (h : (State.construct cfg).load image = .next s) : Reachable cfg image s
  | event (s : State) (e : HostEvent) (hs : Reachable cfg image s) : Reachable cfg image (perform e s).2

/-- A run of host events from the first state to the second on which SP stays above `p` throughout. -/
inductive RunsAbove (p : Fin 16) : State → State → Prop where
  | start (s : State) (h : p < s.sp) : RunsAbove p s s
  | event (s t : State) (e : HostEvent) (hs : RunsAbove p s t) (hp : p < (perform e t).2.sp) :
      RunsAbove p s (perform e t).2

end Sys2Proof.Machine
end

