-- ==== Sys2Proof/Certificates/Slice0/Obligations.lean ====
section
/-! DEFINITION. The statements for the provers, file by file of the spec. Registers are compared as values
(`toNat`) or bytes; a frame is `Unchanged`, which speaks of every register, mark, stack slot, timer, key,
pixel and byte of memory; `mayRead` is true of every state under the default INIT_REG_POLICY. -/

open Sys2Proof Sys2Proof.Machine

/-! ### Encoding and decoding (30_encoding.md) -/

/-- Words written out bit by bit from R86, one or more of each family, decode to their instructions. The
patterns are the spec's general knowledge (log entry 8). -/
def Obligations.WrittenOutWordsDecode : Prop :=
  decode Config.default 0b0000000011100000#16 = .op .cls ∧
  decode Config.default 0b0000000011101110#16 = .op .ret ∧
  decode Config.default 0b0010001000010000#16 = .op (.call 0x210#12) ∧
  decode Config.default 0b0011001100000111#16 = .op (.seImm 3 0x07#8) ∧
  decode Config.default 0b1000000100100100#16 = .op (.addReg 1 2) ∧
  decode Config.default 0b1000000100101110#16 = .op (.shl 1 2) ∧
  decode Config.default 0b1101000100100101#16 = .op (.drw 1 2 5) ∧
  decode Config.default 0b1110000110011110#16 = .op (.skp 1) ∧
  decode Config.default 0b1111000000110011#16 = .op (.ldB 0) ∧
  decode Config.default 0b1111001001100101#16 = .op (.ldVMem 2)

/-- The opcode map of R86 as rows of mask, match, and the instruction read from the fields of R82. -/
def opcodeMap : List (Word × Word × (RegIdx → RegIdx → Fin 16 → Byte → Addr12 → Instr)) :=
  [(0xFFFF, 0x00E0, fun _ _ _ _ _ => .cls), (0xFFFF, 0x00EE, fun _ _ _ _ _ => .ret),
   (0xF000, 0x1000, fun _ _ _ _ nnn => .jp nnn), (0xF000, 0x2000, fun _ _ _ _ nnn => .call nnn),
   (0xF000, 0x3000, fun x _ _ kk _ => .seImm x kk), (0xF000, 0x4000, fun x _ _ kk _ => .sneImm x kk),
   (0xF00F, 0x5000, fun x y _ _ _ => .seReg x y), (0xF000, 0x6000, fun x _ _ kk _ => .ldImm x kk),
   (0xF000, 0x7000, fun x _ _ kk _ => .addImm x kk), (0xF00F, 0x8000, fun x y _ _ _ => .ldReg x y),
   (0xF00F, 0x8001, fun x y _ _ _ => .or x y), (0xF00F, 0x8002, fun x y _ _ _ => .and x y)] ++
  [(0xF00F, 0x8003, fun x y _ _ _ => .xor x y), (0xF00F, 0x8004, fun x y _ _ _ => .addReg x y),
   (0xF00F, 0x8005, fun x y _ _ _ => .sub x y), (0xF00F, 0x8006, fun x y _ _ _ => .shr x y),
   (0xF00F, 0x8007, fun x y _ _ _ => .subn x y), (0xF00F, 0x800E, fun x y _ _ _ => .shl x y),
   (0xF00F, 0x9000, fun x y _ _ _ => .sneReg x y), (0xF000, 0xA000, fun _ _ _ _ nnn => .ldI nnn),
   (0xF000, 0xB000, fun _ _ _ _ nnn => .jpV0 nnn), (0xF000, 0xC000, fun x _ _ kk _ => .rnd x kk),
   (0xF000, 0xD000, fun x y n _ _ => .drw x y n), (0xF0FF, 0xE09E, fun x _ _ _ _ => .skp x)] ++
  [(0xF0FF, 0xE0A1, fun x _ _ _ _ => .sknp x), (0xF0FF, 0xF007, fun x _ _ _ _ => .ldVDt x),
   (0xF0FF, 0xF00A, fun x _ _ _ _ => .ldK x), (0xF0FF, 0xF015, fun x _ _ _ _ => .ldDtV x),
   (0xF0FF, 0xF018, fun x _ _ _ _ => .ldStV x), (0xF0FF, 0xF01E, fun x _ _ _ _ => .addI x),
   (0xF0FF, 0xF029, fun x _ _ _ _ => .ldF x), (0xF0FF, 0xF033, fun x _ _ _ _ => .ldB x),
   (0xF0FF, 0xF055, fun x _ _ _ _ => .ldMemV x), (0xF0FF, 0xF065, fun x _ _ _ _ => .ldVMem x)]

/-- The instruction a row of the opcode map reads from a word's fields: x = w[11:8], y = w[7:4], n = w[3:0],
kk = w[7:0], nnn = w[11:0] (R82). -/
def rowInstr (row : Word × Word × (RegIdx → RegIdx → Fin 16 → Byte → Addr12 → Instr)) (w : Word) : Instr :=
  row.2.2 (Fin.ofNat 16 (w.toNat / 0x100)) (Fin.ofNat 16 (w.toNat / 0x10)) (Fin.ofNat 16 w.toNat)
    (BitVec.ofNat 8 w.toNat) (BitVec.ofNat 12 w.toNat)

/-- R95: an instruction's encoding decodes back to it exactly when some word spells it: every opcode, but SYS
only under SYS_POLICY = ignore and never with nnn = 0x0E0 or 0x0EE. The encoder writes the opcode's row of the
map with its fields (n = 0 for 5xy0 and 9xy0, as those rows' masks say), and SYS nnn as 0nnn. Under
STRICT_5_9 = false decode is not injective: 5xy0 and 5xy3 decode alike. -/
def Obligations.DecodeInvertsEncode : Prop :=
  (∀ (cfg : Config) (i : Instr), decode cfg (encode i) = .op i ↔ wellFormed cfg i = true) ∧
  (∀ i : Instr, (∀ nnn, i ≠ .sys nnn) →
    ∃ row ∈ opcodeMap, encode i &&& row.1 = row.2.1 ∧ rowInstr row (encode i) = i) ∧
  (∀ nnn : Addr12, (encode (.sys nnn)).toNat = nnn.toNat) ∧
  (∀ (cfg : Config) (w : Word), cfg.strict59 = false → w &&& 0xF00F = 0x5000 →
    decode cfg w = decode cfg (w ||| 0x0003))

/-- The other direction: a word that decodes is the encoding of what it decodes to, with one exception, the
lowest nibble of 5xyn and 9xyn, which is not examined unless STRICT_5_9 (R89) and is encoded as 0 (R95). -/
def Obligations.EncodeInvertsDecode : Prop :=
  ∀ (cfg : Config) (w : Word) (i : Instr), decode cfg w = .op i →
    wellFormed cfg i = true ∧
    (encode i = w ∨
      ((w.toNat / 0x1000 = 5 ∨ w.toNat / 0x1000 = 9) ∧ cfg.strict59 = false ∧
        encode i = w &&& 0xFFF0#16))

/-- R93: the words that raise DecodeFault are exactly the five classes (a) to (e), and the fault names the
word. -/
def Obligations.IllegalWordsAreTheListedClasses : Prop :=
  ∀ (cfg : Config) (w v : Word),
    decode cfg w = .decodeFault v ↔
      v = w ∧
      (let a := w.toNat / 0x1000
       let n := w.toNat % 0x10
       let kk := w.toNat % 0x100
       (cfg.sysPolicy = .decodeFault ∧ a = 0 ∧ w.toNat ≠ 0x00E0 ∧ w.toNat ≠ 0x00EE) ∨
       (a = 8 ∧ n ∈ [0x8, 0x9, 0xA, 0xB, 0xC, 0xD, 0xF]) ∨
       (a = 0xE ∧ kk ∉ [0x9E, 0xA1]) ∨
       (a = 0xF ∧ kk ∉ [0x07, 0x0A, 0x15, 0x18, 0x1E, 0x29, 0x33, 0x55, 0x65]) ∨
       (cfg.strict59 = true ∧ (a = 5 ∨ a = 9) ∧ n ≠ 0))

/-- R86, R87: a word that passes a row's test decodes, in every configuration, to that row's opcode with its
operands the word's fields (R82); the rows 5xyn and 9xyn are tested at n = 0 here, for every n under
STRICT_5_9 = false; and a 0nnn word other than 00E0 and 00EE is SYS nnn exactly under SYS_POLICY = ignore. The
patterns are the spec's general knowledge (log entry 8). -/
def Obligations.DecodeFollowsTheOpcodeMap : Prop :=
  (∀ (cfg : Config) (w : Word), ∀ row ∈ opcodeMap, w &&& row.1 = row.2.1 →
    decode cfg w = .op (rowInstr row w)) ∧
  (∀ (cfg : Config) (w : Word), cfg.strict59 = false →
    (w &&& 0xF000 = 0x5000 →
      decode cfg w = .op (.seReg (Fin.ofNat 16 (w.toNat / 0x100)) (Fin.ofNat 16 (w.toNat / 0x10)))) ∧
    (w &&& 0xF000 = 0x9000 →
      decode cfg w = .op (.sneReg (Fin.ofNat 16 (w.toNat / 0x100)) (Fin.ofNat 16 (w.toNat / 0x10))))) ∧
  (∀ (cfg : Config) (w : Word), w &&& 0xF000 = 0x0000 → w ≠ 0x00E0 → w ≠ 0x00EE →
    decode cfg w = if cfg.sysPolicy = .ignore then .op (.sys (BitVec.ofNat 12 w.toNat)) else .decodeFault w)

/-! ### The step (40_engine.md) -/

/-- R101, R102, R104, R52: a step past 0xFFE is the fetch fault; else it takes the word
`mem[PC] * 256 + mem[PC+1]`, an illegal word is the decode fault with PC and word, and a legal one runs its
handler on the state as it is, with nothing added around it. -/
def Obligations.StepRunsTheDecodedInstruction : Prop :=
  ∀ s : State,
    (0xFFE < s.pc.toNat →
      step s = .fault (.outOfBoundsMemoryAccess ⟨s.pc, none⟩ s.pc.toNat 2)) ∧
    (s.pc.toNat ≤ 0xFFE → ∀ w : Word,
      w.toNat = (s.byte s.pc.toNat).toNat * 256 + (s.byte (s.pc.toNat + 1)).toNat →
        (∀ v, decode s.cfg w = .decodeFault v → step s = .fault (.decodeFault ⟨s.pc, some w⟩ v)) ∧
        (∀ i, decode s.cfg w = .op i → step s = exec i s))

/-- The fault table (60_exceptions.md, with the condition of each fault): a handler faults exactly with the fault
`owedFault` names, completes exactly when it names none, and is never refused. Two parts of `owedFault` are the
model's choice and no rule of the spec: under fault_on_unwritten the uninitialised read, with the model's own sets
of reads, comes before every other check (log entry 5, DESIGN CHOICE); and the handler of SYS under decode_fault,
which no step reaches, is the decode fault of its word (log entry 12, DESIGN CHOICE). -/
def Obligations.HandlersFaultExactlyByTheTable : Prop :=
  ∀ (i : Instr) (s : State),
    (∀ f, exec i s = .fault f ↔ owedFault i s = some f) ∧
    ((∃ t, exec i s = .next t) ↔ owedFault i s = none) ∧
    (∀ r, exec i s ≠ .refused r)

/-- R209: every fault of a step records the PC of the faulting instruction, and the fetched word exactly when
the fetch succeeded. -/
def Obligations.FaultsRecordPcAndWord : Prop :=
  ∀ (s : State) (f : Fault), step s = .fault f →
    f.site.pc = s.pc ∧
    (0xFFE < s.pc.toNat → f.site.word = none) ∧
    (s.pc.toNat ≤ 0xFFE → ∃ w : Word, f.site.word = some w ∧
      w.toNat = (s.byte s.pc.toNat).toNat * 256 + (s.byte (s.pc.toNat + 1)).toNat)

/-- R106: RedrawRequested is the outcome of the completed DRW and of nothing else, AwaitInput of LD Vx,K with
no key pressed and of nothing else, Continue of every other completed step. -/
def Obligations.OutcomesAreClassified : Prop :=
  ∀ (i : Instr) (s t : State), exec i s = .next t →
    (t.outcome = .redrawRequested ↔ ∃ x y n, i = .drw x y n) ∧
    (t.outcome = .awaitInput ↔ (∃ x, i = .ldK x) ∧ ∀ k : Fin 16, s.keys[k] = false) ∧
    (t.outcome = .continued ↔
      (¬ ∃ x y n, i = .drw x y n) ∧ ¬ ((∃ x, i = .ldK x) ∧ ∀ k : Fin 16, s.keys[k] = false))

/-- R103: only the four jumps and the blocked LD Vx,K leave PC elsewhere than at next or, for the six skips,
next + 2. -/
def Obligations.PcAdvancesByTwoUnlessBranching : Prop :=
  ∀ (i : Instr) (s t : State), exec i s = .next t →
    match i with
    | .jp _ | .call _ | .ret | .jpV0 _ => True
    | .seImm _ _ | .sneImm _ _ | .seReg _ _ | .sneReg _ _ | .skp _ | .sknp _ =>
      t.pc = s.pc + 2 ∨ t.pc = s.pc + 4
    | .ldK _ => (t.outcome = .awaitInput → t.pc = s.pc) ∧ (t.outcome = .continued → t.pc = s.pc + 2)
    | _ => t.pc = s.pc + 2

/-- R110, R225: no handler but RND depends on the host's random bytes or requests one: with another request
count it does the same, and keeps that count. -/
def Obligations.OnlyRndUsesTheRandomCapability : Prop :=
  (∀ (i : Instr) (s : State) (d : Nat), (∀ x kk, i ≠ .rnd x kk) →
    exec i { s with draws := d } =
      match exec i s with
      | .next t => .next { t with draws := d }
      | .fault f => .fault f
      | .refused r => .refused r) ∧
  (∀ (i : Instr) (s t : State), exec i s = .next t →
    (∀ x kk, i ≠ .rnd x kk) → t.draws = s.draws)

/-- R115 (decision D28): a step at a self-jump changes nothing but the outcome: PC is the same again. The word
0x1nnn of JP is general knowledge (log entry 8). -/
def Obligations.SelfJumpLoopsForever : Prop :=
  ∀ (s : State) (nnn : Addr12), s.pc.toNat = nnn.toNat → nnn.toNat ≤ 0xFFE →
    (s.byte s.pc.toNat).toNat * 256 + (s.byte (s.pc.toNat + 1)).toNat = 0x1000 + nnn.toNat →
    ∃ t, step s = .next t ∧ t.outcome = .continued ∧ UnchangedBut [] s t

/-! ### Whole-machine rules about state (10_state.md, 20_memory.md) -/

/-- R24: no instruction but those listed writes a general register, and each writes only those listed. OR, AND
and XOR write VF too under LOGIC_VF_RESET, which is the variant of R162 (decision D9) and false by default. -/
def Obligations.OnlyListedInstructionsWriteGeneralRegisters : Prop :=
  ∀ (i : Instr) (s t : State) (z : RegIdx), exec i s = .next t → t.getV z ≠ s.getV z →
    match i with
    | .ldImm x _ | .addImm x _ | .ldReg x _ | .rnd x _ | .ldVDt x | .ldK x => z = x
    | .or x _ | .and x _ | .xor x _ => z = x ∨ (z = 15 ∧ s.cfg.logicVfReset = true)
    | .addReg x _ | .sub x _ | .shr x _ | .subn x _ | .shl x _ => z = x ∨ z = 15
    | .drw _ _ _ => z = 15
    | .ldVMem x => z.val ≤ x.val
    | _ => False

/-- R29, R30: no instruction but CALL writes a stack slot, and it writes the slot SP; none but CALL and RET
moves SP. -/
def Obligations.OnlyCallAndRetTouchTheStack : Prop :=
  ∀ (i : Instr) (s t : State), exec i s = .next t →
    (∀ j : Fin 16, t.stack[j] ≠ s.stack[j] → (∃ nnn, i = .call nnn) ∧ j = s.sp) ∧
    (t.sp ≠ s.sp → i = .ret ∨ ∃ nnn, i = .call nnn)

/-- R33, R34, R26, R31: no instruction writes a key; only CLS and DRW change the display; only Fx15 writes DT
and only Fx18 writes ST; I is written by Annn, Fx1E, Fx29, and by Fx55 and Fx65 only under a
LOADSTORE_I_INCREMENT other than none. -/
def Obligations.KeysDisplayTimersIndexHaveTheirWriters : Prop :=
  ∀ (i : Instr) (s t : State), exec i s = .next t →
    t.keys = s.keys ∧
    (t.disp ≠ s.disp → i = .cls ∨ ∃ x y n, i = .drw x y n) ∧
    (t.dt ≠ s.dt → ∃ x, i = .ldDtV x) ∧
    (t.st ≠ s.st → ∃ x, i = .ldStV x) ∧
    (t.index ≠ s.index →
      (∃ nnn, i = .ldI nnn) ∨ (∃ x, i = .addI x) ∨ (∃ x, i = .ldF x) ∨
      (s.cfg.loadStoreIncrement ≠ .none ∧ ((∃ x, i = .ldMemV x) ∨ ∃ x, i = .ldVMem x)))

/-- R51, R55, R59: the only stores are Fx33 to I..I+2 and Fx55 to I..I+x, inside memory, and outside the font
region under FONT_WRITE_POLICY = fault. Memory is assumed in its canonical form, which every step keeps. -/
def Obligations.OnlyTheTwoStoresChangeMemory : Prop :=
  ∀ (i : Instr) (s t : State) (a : Nat), Memory.wf s.cfg.fontTable s.mem = true →
    exec i s = .next t → t.byte a ≠ s.byte a →
    a < 0x1000 ∧ (s.cfg.fontWritePolicy = .fault → 0x050 ≤ a) ∧
    ((∃ x, i = .ldB x) ∧ s.index.toNat ≤ a ∧ a ≤ s.index.toNat + 2 ∨
      ∃ x, i = .ldMemV x ∧ s.index.toNat ≤ a ∧ a ≤ s.index.toNat + x.val)

/-- The configuration is fixed for a run (R21): no request of the host changes it. -/
def Obligations.ConfigurationIsFixed : Prop :=
  (∀ (e : HostEvent) (s : State), (perform e s).2.cfg = s.cfg) ∧
  (∀ (s t : State) (image : List Byte), s.load image = .next t → t.cfg = s.cfg)

/-- The marks of INIT_REG_POLICY (R39; log entry 4): a completed instruction marks exactly the registers it
writes, and takes no mark away. -/
def Obligations.WrittenRegistersAreMarked : Prop :=
  ∀ (i : Instr) (s t : State) (r : Reg), exec i s = .next t →
    (t.written.has r = true ↔ s.written.has r = true ∨ r ∈ Instr.writes s.cfg s i)

/-- R39, R205 with log entry 5: under fault_on_unwritten a handler that reads a register holding no value is
the fault Unspecified(UninitializedRead), whatever else would apply. -/
def Obligations.UnwrittenReadsFault : Prop :=
  ∀ (i : Instr) (s : State), s.cfg.initRegPolicy = .faultOnUnwritten →
    (∃ r ∈ Instr.reads s.cfg i, s.written.has r = false) →
    exec i s = .fault (.unspecified ⟨s.pc, s.fetch?⟩ .uninitializedRead)

/-- After a store of the bytes `b 0`, ..., `b (n-1)` at I, the next fetch, at PC + 2, sees each stored byte that
falls on it, in either half of its word, and the old byte where none does. -/
def NextFetchSees (s t : State) (n : Nat) (b : Nat → Nat) : Prop :=
  let after := fun a => if s.index.toNat ≤ a ∧ a < s.index.toNat + n then b (a - s.index.toNat) else (s.byte a).toNat
  ∃ w, t.fetch? = some w ∧ w.toNat / 256 = after (s.pc.toNat + 2) ∧ w.toNat % 256 = after (s.pc.toNat + 3)

/-- R65 (decision D33): what Fx55 or Fx33 stores over one or both bytes of the next instruction is in the word the
very next step fetches, byte by byte for every overlap, wherever that fetch is inside memory. -/
def Obligations.StoresReachTheNextFetch : Prop :=
  (∀ (x : RegIdx) (s t : State), Memory.wf s.cfg.fontTable s.mem = true → exec (.ldMemV x) s = .next t →
    s.pc.toNat + 4 ≤ 0x1000 → NextFetchSees s t (x.val + 1) fun k => (s.getV (Fin.ofNat 16 k)).toNat) ∧
  (∀ (x : RegIdx) (s t : State), Memory.wf s.cfg.fontTable s.mem = true → exec (.ldB x) s = .next t →
    s.pc.toNat + 4 ≤ 0x1000 → NextFetchSees s t 3 fun k =>
      match k with
      | 0 => (s.getV x).toNat / 100
      | 1 => (s.getV x).toNat % 100 / 10
      | _ => (s.getV x).toNat % 10)

/-! ### Control flow (41_control_flow.md) -/

/-- R120 (decision D13): SYS is a no-op under SYS_POLICY = ignore; under decode_fault its handler, which no
step then reaches, is the decode fault of the word 0nnn (log entry 12). -/
def Obligations.SysIsANoOpWhenIgnored : Prop :=
  ∀ (nnn : Addr12) (s : State),
    (s.cfg.sysPolicy = .ignore →
      ∃ t, exec (.sys nnn) s = .next t ∧ t.pc = s.pc + 2 ∧ t.outcome = .continued ∧ UnchangedBut [.pc] s t) ∧
    (s.cfg.sysPolicy = .decodeFault →
      ∃ w : Word, w.toNat = nnn.toNat ∧ exec (.sys nnn) s = .fault (.decodeFault ⟨s.pc, s.fetch?⟩ w))

/-- RET with the order the spec decided (C1, D4): at SP > 0 it takes one entry off and jumps to the slot just
released, which stays; at SP = 0 it is StackUnderflow. -/
def Obligations.RetPopsTheReturnAddress : Prop :=
  ∀ s : State,
    (s.sp ≠ 0 → ∃ (t : State) (j : Fin 16), exec .ret s = .next t ∧ j.val + 1 = s.sp.val ∧ t.sp = j ∧
      t.pc = s.stack[j] ∧ t.outcome = .continued ∧ UnchangedBut [.pc, .sp] s t) ∧
    (s.sp = 0 → exec .ret s = .fault (.stackUnderflow ⟨s.pc, s.fetch?⟩ 0))

/-- JP (general knowledge, G4): PC becomes nnn. -/
def Obligations.JpJumps : Prop :=
  ∀ (nnn : Addr12) (s : State), ∃ t, exec (.jp nnn) s = .next t ∧ t.pc.toNat = nnn.toNat ∧
    t.outcome = .continued ∧ UnchangedBut [.pc] s t

/-- R123: below SP = 15 CALL pushes PC + 2 and jumps; at SP = 15 it is StackOverflow. -/
def Obligations.CallPushesTheReturnAddress : Prop :=
  ∀ (nnn : Addr12) (s : State),
    (s.sp ≠ 15 → ∃ t, exec (.call nnn) s = .next t ∧ t.stack[s.sp] = s.pc + 2 ∧
      t.sp.val = s.sp.val + 1 ∧ t.pc.toNat = nnn.toNat ∧ t.outcome = .continued ∧
      UnchangedBut [.pc, .sp, .stack s.sp] s t) ∧
    (s.sp = 15 → exec (.call nnn) s = .fault (.stackOverflow ⟨s.pc, s.fetch?⟩ 15))

/-- The test of the source's §8 (L1.5): for every SP 0 to 14, CALL then RET restores SP and leaves PC at the
instruction after the CALL. -/
def Obligations.CallThenRetReturns : Prop :=
  ∀ (nnn : Addr12) (s : State), s.sp.val ≤ 14 →
    ∃ t u, exec (.call nnn) s = .next t ∧ exec .ret t = .next u ∧ u.pc = s.pc + 2 ∧
      UnchangedBut [.pc, .stack s.sp] s u

/-- R30: through any run of host events during which SP stays above the caller's, a RET back at the callee's
SP returns to the instruction after the CALL and restores the caller's SP. -/
def Obligations.ReturnMatchesTheMostRecentCall : Prop :=
  ∀ (nnn : Addr12) (s t u : State), exec (.call nnn) s = .next t → RunsAbove s.sp t u →
    u.sp.val = s.sp.val + 1 →
    ∃ v, exec .ret u = .next v ∧ v.pc = s.pc + 2 ∧ v.sp = s.sp

/-- The step lemma behind R30: no step, timer tick or key change overwrites a live stack entry, one below SP. -/
def Obligations.LiveStackEntriesAreKept : Prop :=
  ∀ (e : HostEvent) (s : State) (p : Fin 16), p < s.sp → (perform e s).2.stack[p] = s.stack[p]

/-- R124 to R127: the four skips on registers go to next + 2 exactly when their comparison holds, else to
next; x = y is included, and VF is compared like any register. The last clause, that a word 5xyn or 9xyn
is a decode fault only for n != 0 under STRICT_5_9 = true, rests on the spec's decision D12 (R89) and on encodings
it takes from general knowledge (G7; log entry 8, PRESUMED). -/
def Obligations.RegisterSkipsCompare : Prop :=
  (∀ (x : RegIdx) (kk : Byte) (s : State), s.mayRead [.v x] →
    (∃ t, exec (.seImm x kk) s = .next t ∧ t.pc = s.pc + (if s.getV x = kk then 4 else 2) ∧
      t.outcome = .continued ∧ UnchangedBut [.pc] s t) ∧
    (∃ t, exec (.sneImm x kk) s = .next t ∧ t.pc = s.pc + (if s.getV x = kk then 2 else 4) ∧
      t.outcome = .continued ∧ UnchangedBut [.pc] s t)) ∧
  (∀ (x y : RegIdx) (s : State), s.mayRead [.v x, .v y] →
    (∃ t, exec (.seReg x y) s = .next t ∧ t.pc = s.pc + (if s.getV x = s.getV y then 4 else 2) ∧
      t.outcome = .continued ∧ UnchangedBut [.pc] s t) ∧
    (∃ t, exec (.sneReg x y) s = .next t ∧ t.pc = s.pc + (if s.getV x = s.getV y then 2 else 4) ∧
      t.outcome = .continued ∧ UnchangedBut [.pc] s t)) ∧
  (∀ (cfg : Config) (w : Word), w.toNat / 0x1000 = 5 ∨ w.toNat / 0x1000 = 9 →
    (decode cfg w = .decodeFault w ↔ cfg.strict59 = true ∧ w.toNat % 16 ≠ 0))

/-- JP V0 (general knowledge, G5; decision D21): PC becomes nnn plus V0, or plus V[nnn[11:8]] under
JUMP_OFFSET_REG = vx, not reduced. -/
def Obligations.JpV0AddsTheOffsetRegister : Prop :=
  ∀ (nnn : Addr12) (s : State) (r : RegIdx),
    r.val = (if s.cfg.jumpOffsetReg = .v0 then 0 else nnn.toNat / 256) → s.mayRead [.v r] →
    ∃ t, exec (.jpV0 nnn) s = .next t ∧ t.pc.toNat = nnn.toNat + (s.getV r).toNat ∧
      t.outcome = .continued ∧ UnchangedBut [.pc] s t

/-! ### Loads, index and memory (42_load_index.md) -/

/-- R140, R141: Vx becomes kk, or Vy; no flag; x = 0xF writes VF as a register. -/
def Obligations.LoadsWriteTheRegister : Prop :=
  (∀ (x : RegIdx) (kk : Byte) (s : State), ∃ t, exec (.ldImm x kk) s = .next t ∧ t.getV x = kk ∧
    t.pc = s.pc + 2 ∧ t.outcome = .continued ∧ UnchangedBut [.pc, .v x] s t) ∧
  (∀ (x y : RegIdx) (s : State), s.mayRead [.v y] → ∃ t, exec (.ldReg x y) s = .next t ∧
    t.getV x = s.getV y ∧ t.pc = s.pc + 2 ∧ t.outcome = .continued ∧ UnchangedBut [.pc, .v x] s t)

/-- R142, R144: I becomes nnn, or five times the digit, which is Vx or its low nibble per FONT_DIGIT_MODE. -/
def Obligations.IndexLoads : Prop :=
  (∀ (nnn : Addr12) (s : State), ∃ t, exec (.ldI nnn) s = .next t ∧ t.index.toNat = nnn.toNat ∧
    t.pc = s.pc + 2 ∧ t.outcome = .continued ∧ UnchangedBut [.pc, .index] s t) ∧
  (∀ (x : RegIdx) (s : State), s.mayRead [.v x] → ∃ t, exec (.ldF x) s = .next t ∧
    t.index.toNat = 5 * (if s.cfg.fontDigitMode = .unmasked then (s.getV x).toNat else (s.getV x).toNat % 16) ∧
    t.pc = s.pc + 2 ∧ t.outcome = .continued ∧ UnchangedBut [.pc, .index] s t)

/-- ADD I, Vx with the reduction the spec decided (D19): I + Vx mod 2^16, VF as before. -/
def Obligations.AddIndexWraps : Prop :=
  ∀ (x : RegIdx) (s : State), s.mayRead [.index, .v x] → ∃ t, exec (.addI x) s = .next t ∧
    t.index.toNat = (s.index.toNat + (s.getV x).toNat) % 65536 ∧
    t.pc = s.pc + 2 ∧ t.outcome = .continued ∧ UnchangedBut [.pc, .index] s t

/-- R145: with I..I+2 in memory, and outside the font region unless stores there are allowed (decision D16),
LD B stores the hundreds, tens and ones of Vx at I, I+1 and I+2, and every other byte reads as before. Past
0xFFF it is OutOfBoundsMemoryAccess(I, 3); into the font region it is Unspecified(FontRegionWrite). -/
def Obligations.BcdStoresTheDigits : Prop :=
  ∀ (x : RegIdx) (s : State), Memory.wf s.cfg.fontTable s.mem = true → s.mayRead [.v x, .index] →
    (s.index.toNat + 3 ≤ 0x1000 → (s.cfg.fontWritePolicy = .allow ∨ 0x050 ≤ s.index.toNat) →
      ∃ t, exec (.ldB x) s = .next t ∧
        (t.byte s.index.toNat).toNat = (s.getV x).toNat / 100 ∧
        (t.byte (s.index.toNat + 1)).toNat = (s.getV x).toNat % 100 / 10 ∧
        (t.byte (s.index.toNat + 2)).toNat = (s.getV x).toNat % 10 ∧
        t.pc = s.pc + 2 ∧ t.outcome = .continued ∧
        UnchangedBut [.pc, .mem s.index.toNat, .mem (s.index.toNat + 1), .mem (s.index.toNat + 2)] s t) ∧
    (0x1000 < s.index.toNat + 3 →
      exec (.ldB x) s = .fault (.outOfBoundsMemoryAccess ⟨s.pc, s.fetch?⟩ s.index.toNat 3)) ∧
    (s.cfg.fontWritePolicy = .fault → s.index.toNat < 0x050 →
      exec (.ldB x) s = .fault (.unspecified ⟨s.pc, s.fetch?⟩ .fontRegionWrite))

/-- I after the bulk transfers, per LOADSTORE_I_INCREMENT (R146, decision D10). -/
def movedIndex (s : State) (x : RegIdx) : Nat :=
  match s.cfg.loadStoreIncrement with
  | .none => s.index.toNat
  | .xPlus1 => (s.index.toNat + x.val + 1) % 65536
  | .x => (s.index.toNat + x.val) % 65536

/-- R146: LD [I], Vx stores V0..Vx at I..I+x, every other byte reads as before, and I moves per
LOADSTORE_I_INCREMENT; the two faults are those of the range and of the font region. -/
def Obligations.BulkStoreWritesTheRegisters : Prop :=
  ∀ (x : RegIdx) (s : State), Memory.wf s.cfg.fontTable s.mem = true →
    s.mayRead (.index :: (List.range (x.val + 1)).map fun k => .v (Fin.ofNat 16 k)) →
    (s.index.toNat + x.val + 1 ≤ 0x1000 → (s.cfg.fontWritePolicy = .allow ∨ 0x050 ≤ s.index.toNat) →
      ∃ t, exec (.ldMemV x) s = .next t ∧
        (∀ k : RegIdx, k ≤ x → t.byte (s.index.toNat + k.val) = s.getV k) ∧
        t.index.toNat = movedIndex s x ∧ t.pc = s.pc + 2 ∧ t.outcome = .continued ∧
        Unchanged (fun c => c = .pc ∨ (c = .index ∧ s.cfg.loadStoreIncrement ≠ .none) ∨
          ∃ k : RegIdx, k ≤ x ∧ c = .mem (s.index.toNat + k.val)) s t) ∧
    (0x1000 < s.index.toNat + x.val + 1 → exec (.ldMemV x) s =
      .fault (.outOfBoundsMemoryAccess ⟨s.pc, s.fetch?⟩ s.index.toNat (x.val + 1))) ∧
    (s.cfg.fontWritePolicy = .fault → s.index.toNat < 0x050 →
      exec (.ldMemV x) s = .fault (.unspecified ⟨s.pc, s.fetch?⟩ .fontRegionWrite))

/-- R147: LD Vx, [I] loads V0..Vx from I..I+x, VF only as the last register, I moves per
LOADSTORE_I_INCREMENT, and memory is as before; past 0xFFF it is OutOfBoundsMemoryAccess(I, x+1). -/
def Obligations.BulkLoadReadsTheRegisters : Prop :=
  ∀ (x : RegIdx) (s : State), s.mayRead [.index] →
    (s.index.toNat + x.val + 1 ≤ 0x1000 →
      ∃ t, exec (.ldVMem x) s = .next t ∧
        (∀ k : RegIdx, k ≤ x → t.getV k = s.byte (s.index.toNat + k.val)) ∧
        t.index.toNat = movedIndex s x ∧ t.pc = s.pc + 2 ∧ t.outcome = .continued ∧
        Unchanged (fun c => c = .pc ∨ (c = .index ∧ s.cfg.loadStoreIncrement ≠ .none) ∨
          ∃ k : RegIdx, k ≤ x ∧ c = .v k) s t) ∧
    (0x1000 < s.index.toNat + x.val + 1 → exec (.ldVMem x) s =
      .fault (.outOfBoundsMemoryAccess ⟨s.pc, s.fetch?⟩ s.index.toNat (x.val + 1)))

/-! ### Arithmetic, logic, shifts, random (43_arith.md) -/

/-- The two writes of R160 as they are seen after the step: the result in Vx and the flag in VF, and where
Vx is VF the one VF_ORDER lets land. -/
def ResultAndFlag (s t : State) (x : RegIdx) (result flag : Nat) : Prop :=
  (x ≠ 15 → (t.getV x).toNat = result ∧ (t.getV 15).toNat = flag) ∧
  (x = 15 → (t.getV 15).toNat = if s.cfg.vfOrder = .flagLast then flag else result)

/-- R161: Vx + kk mod 256; the flag register is untouched (but as the destination x = 0xF). -/
def Obligations.AddImmediateWraps : Prop :=
  ∀ (x : RegIdx) (kk : Byte) (s : State), s.mayRead [.v x] → ∃ t, exec (.addImm x kk) s = .next t ∧
    (t.getV x).toNat = ((s.getV x).toNat + kk.toNat) % 256 ∧
    t.pc = s.pc + 2 ∧ t.outcome = .continued ∧ UnchangedBut [.pc, .v x] s t

/-- One of the three logic instructions completes with the operation `f` of Vx and Vy in Vx. VF is written 0
under LOGIC_VF_RESET (R162), with VF_ORDER where x = 0xF, and is as before otherwise. -/
def LogicResult (i : Instr) (f : Nat → Nat → Nat) (x y : RegIdx) (s : State) : Prop :=
  ∃ t, exec i s = .next t ∧
    (s.cfg.logicVfReset = false → (t.getV x).toNat = f (s.getV x).toNat (s.getV y).toNat) ∧
    (s.cfg.logicVfReset = true → ResultAndFlag s t x (f (s.getV x).toNat (s.getV y).toNat) 0) ∧
    t.pc = s.pc + 2 ∧ t.outcome = .continued ∧
    Unchanged (fun c => c = .pc ∨ c = .v x ∨ (c = .v 15 ∧ s.cfg.logicVfReset = true)) s t

/-- OR, AND and XOR (general knowledge, G6): bit by bit, VF per LOGIC_VF_RESET. -/
def Obligations.LogicIsBitwise : Prop :=
  ∀ (x y : RegIdx) (s : State), s.mayRead [.v x, .v y] →
    LogicResult (.or x y) (fun a b => a ||| b) x y s ∧
    LogicResult (.and x y) (fun a b => a &&& b) x y s ∧
    LogicResult (.xor x y) (fun a b => a ^^^ b) x y s

/-- R166, R160: the low 8 bits of the sum, and VF the carry, from the original values. -/
def Obligations.AddRegistersCarries : Prop :=
  ∀ (x y : RegIdx) (s : State), s.mayRead [.v x, .v y] → ∃ t, exec (.addReg x y) s = .next t ∧
    ResultAndFlag s t x (((s.getV x).toNat + (s.getV y).toNat) % 256)
      (if 0xFF < (s.getV x).toNat + (s.getV y).toNat then 1 else 0) ∧
    t.pc = s.pc + 2 ∧ t.outcome = .continued ∧ UnchangedBut [.pc, .v x, .v 15] s t

/-- R167, R169, R160: the wraparound difference, and VF the NOT borrow, from the original values; SUB takes
Vx - Vy and SUBN takes Vy - Vx. -/
def Obligations.SubtractionsBorrow : Prop :=
  ∀ (x y : RegIdx) (s : State), s.mayRead [.v x, .v y] →
    (∃ t, exec (.sub x y) s = .next t ∧
      ResultAndFlag s t x (((s.getV x).toNat + 256 - (s.getV y).toNat) % 256)
        (if (s.getV y).toNat ≤ (s.getV x).toNat then 1 else 0) ∧
      t.pc = s.pc + 2 ∧ t.outcome = .continued ∧ UnchangedBut [.pc, .v x, .v 15] s t) ∧
    (∃ t, exec (.subn x y) s = .next t ∧
      ResultAndFlag s t x (((s.getV y).toNat + 256 - (s.getV x).toNat) % 256)
        (if (s.getV x).toNat ≤ (s.getV y).toNat then 1 else 0) ∧
      t.pc = s.pc + 2 ∧ t.outcome = .continued ∧ UnchangedBut [.pc, .v x, .v 15] s t)

/-- R168, R170, R160: the source register (Vx, or Vy under SHIFT_SOURCE = vy) shifted by one into Vx, and VF the
bit shifted out of the original value. -/
def Obligations.ShiftsMoveOneBit : Prop :=
  ∀ (x y r : RegIdx) (s : State), r = (if s.cfg.shiftSource = .vx then x else y) → s.mayRead [.v r] →
    (∃ t, exec (.shr x y) s = .next t ∧
      ResultAndFlag s t x ((s.getV r).toNat / 2) ((s.getV r).toNat % 2) ∧
      t.pc = s.pc + 2 ∧ t.outcome = .continued ∧ UnchangedBut [.pc, .v x, .v 15] s t) ∧
    (∃ t, exec (.shl x y) s = .next t ∧
      ResultAndFlag s t x ((s.getV r).toNat * 2 % 256) ((s.getV r).toNat / 128) ∧
      t.pc = s.pc + 2 ∧ t.outcome = .continued ∧ UnchangedBut [.pc, .v x, .v 15] s t)

/-- RND (decision D34): Vx becomes the byte of this request AND kk, and exactly one request is counted. The
byte is the free value of log entry 3, so this holds whatever the host answers. -/
def Obligations.RndMasksTheRandomByte : Prop :=
  ∀ (x : RegIdx) (kk : Byte) (s : State), ∃ t, exec (.rnd x kk) s = .next t ∧
    (t.getV x).toNat = (Config.randomByte s.draws).toNat &&& kk.toNat ∧ t.draws = s.draws + 1 ∧
    t.pc = s.pc + 2 ∧ t.outcome = .continued ∧ UnchangedBut [.pc, .v x, .draws] s t

/-! ### Display (44_display.md) -/

/-- R180: CLS clears every pixel, changes no register, and its outcome is Continue. -/
def Obligations.ClsClearsTheDisplay : Prop :=
  ∀ s : State, ∃ t, exec .cls s = .next t ∧ (∀ px py, px < 64 → py < 32 → t.pixel px py = false) ∧
    t.pc = s.pc + 2 ∧ t.outcome = .continued ∧
    Unchanged (fun c => c = .pc ∨ ∃ p, c = .pixel p) s t

/-- A set bit of the sprite at I falls on pixel (px, py): row r at I + r, column c its bit 7 - c, the origin
(Vx, Vy), with per-pixel wraparound (R181). -/
def SpriteBitAt (s : State) (x y : RegIdx) (n : Fin 16) (px py : Nat) : Prop :=
  ∃ r < n.val, ∃ c < 8, (s.byte (s.index.toNat + r)).getLsbD (7 - c) = true ∧
    px = ((s.getV x).toNat + c) % 64 ∧ py = ((s.getV y).toNat + r) % 32

/-- R181 with D22 and D23: the pixels under set sprite bits turn over and no other does; VF is 1 exactly when a
set pixel was turned off, and 0 otherwise; the outcome is RedrawRequested; n = 0 reads nothing at I. With n > 0
and I + n past 0x1000 it is OutOfBoundsMemoryAccess(I, n). -/
def Obligations.DrwXorsTheSprite : Prop :=
  ∀ (x y : RegIdx) (n : Fin 16) (s : State), s.mayRead [.v x, .v y] → (n ≠ 0 → s.mayRead [.index]) →
    (n = 0 ∨ s.index.toNat + n.val ≤ 0x1000 →
      ∃ t, exec (.drw x y n) s = .next t ∧
        (∀ px py, px < 64 → py < 32 →
          (SpriteBitAt s x y n px py → t.pixel px py = !s.pixel px py) ∧
          (¬ SpriteBitAt s x y n px py → t.pixel px py = s.pixel px py)) ∧
        ((∃ px < 64, ∃ py < 32, s.pixel px py = true ∧ t.pixel px py = false) → t.getV 15 = 1) ∧
        ((¬ ∃ px < 64, ∃ py < 32, s.pixel px py = true ∧ t.pixel px py = false) → t.getV 15 = 0) ∧
        t.pc = s.pc + 2 ∧ t.outcome = .redrawRequested ∧
        Unchanged (fun c => c = .pc ∨ c = .v 15 ∨ ∃ p, c = .pixel p) s t) ∧
    (n ≠ 0 → 0x1000 < s.index.toNat + n.val → exec (.drw x y n) s =
      .fault (.outOfBoundsMemoryAccess ⟨s.pc, s.fetch?⟩ s.index.toNat n.val))

/-- R182: the same sprite drawn twice at the same origin restores the display; the second DRW reports VF = 1
exactly when a set bit of the sprite falls on a pixel that was clear before the first. On a display that is
clear there that is R182's "iff the sprite has at least one set bit"; elsewhere that clause, the spec's own
derivation, does not follow from R181 (log entry 19). -/
def Obligations.DrawingTwiceRestores : Prop :=
  ∀ (x y : RegIdx) (n : Fin 16) (s t u : State), exec (.drw x y n) s = .next t →
    t.getV x = s.getV x → t.getV y = s.getV y → exec (.drw x y n) t = .next u →
    u.disp = s.disp ∧
    (u.getV 15 = 1 ↔ ∃ px < 64, ∃ py < 32, SpriteBitAt s x y n px py ∧ s.pixel px py = false) ∧
    (s.disp = 0 → (u.getV 15 = 1 ↔ ∃ r < n.val, s.byte (s.index.toNat + r) ≠ 0))

/-! ### Keypad and timers (45_keypad_timer.md, 60_exceptions.md) -/

/-- R190 to R192: with Vx at most 0xF, or its low nibble under KEY_INDEX_POLICY = low_nibble, SKP skips exactly
when that key is pressed and SKNP exactly when it is not; with Vx above 0xF under the policy fault, both are
Unspecified(KeyIndexRange). -/
def Obligations.KeySkipsTestTheKey : Prop :=
  ∀ (x : RegIdx) (s : State), s.mayRead [.v x] →
    (∀ k : Fin 16, k.val = (s.getV x).toNat % 16 →
      ((s.getV x).toNat ≤ 0xF ∨ s.cfg.keyIndexPolicy = .lowNibble) →
      (∃ t, exec (.skp x) s = .next t ∧ t.pc = s.pc + (if s.keys[k] = true then 4 else 2) ∧
        t.outcome = .continued ∧ UnchangedBut [.pc] s t) ∧
      (∃ t, exec (.sknp x) s = .next t ∧ t.pc = s.pc + (if s.keys[k] = true then 2 else 4) ∧
        t.outcome = .continued ∧ UnchangedBut [.pc] s t)) ∧
    (0xF < (s.getV x).toNat → s.cfg.keyIndexPolicy = .fault →
      exec (.skp x) s = .fault (.unspecified ⟨s.pc, s.fetch?⟩ .keyIndexRange) ∧
      exec (.sknp x) s = .fault (.unspecified ⟨s.pc, s.fetch?⟩ .keyIndexRange))

/-- R193: with a key pressed, the lowest pressed one is loaded and the program goes on; with none pressed the
outcome is AwaitInput and nothing is written, PC included. -/
def Obligations.WaitForKeyTakesTheLowestOrBlocks : Prop :=
  ∀ (x : RegIdx) (s : State),
    (∀ k : Fin 16, s.keys[k] = true → (∀ j : Fin 16, j < k → s.keys[j] = false) →
      ∃ t, exec (.ldK x) s = .next t ∧ (t.getV x).toNat = k.val ∧ t.pc = s.pc + 2 ∧
        t.outcome = .continued ∧ UnchangedBut [.pc, .v x] s t) ∧
    ((∀ k : Fin 16, s.keys[k] = false) →
      ∃ t, exec (.ldK x) s = .next t ∧ t.outcome = .awaitInput ∧ UnchangedBut [] s t)

/-- A blocked wait is retried (R193): at an Fx0A with no key pressed the step is AwaitInput and nothing
changes; once the host has pressed a key, after no timer tick or any number of them, the next step loads it and
goes on. -/
def Obligations.BlockedWaitIsRetried : Prop :=
  ∀ (s : State) (w : Word) (x : RegIdx) (k : Fin 16), s.fetch? = some w → decode s.cfg w = .op (.ldK x) →
    (∀ j : Fin 16, s.keys[j] = false) →
    ∃ t, step s = .next t ∧ t.outcome = .awaitInput ∧ UnchangedBut [] s t ∧
      ∀ ticks : Nat, ∃ u, step ((State.timerTick^[ticks] t).setKey k true) = .next u ∧ u.outcome = .continued ∧
        u.pc = s.pc + 2 ∧ (u.getV x).toNat = k.val

/-- R194, R195, R196: Vx becomes DT; DT becomes Vx and ST stays; ST becomes Vx and DT stays. -/
def Obligations.TimerTransfers : Prop :=
  ∀ (x : RegIdx) (s : State),
    (s.mayRead [.dt] → ∃ t, exec (.ldVDt x) s = .next t ∧ t.getV x = s.dt ∧ t.pc = s.pc + 2 ∧
      t.outcome = .continued ∧ UnchangedBut [.pc, .v x] s t) ∧
    (s.mayRead [.v x] → ∃ t, exec (.ldDtV x) s = .next t ∧ t.dt = s.getV x ∧ t.pc = s.pc + 2 ∧
      t.outcome = .continued ∧ UnchangedBut [.pc, .dt] s t) ∧
    (s.mayRead [.v x] → ∃ t, exec (.ldStV x) s = .next t ∧ t.st = s.getV x ∧
      (t.soundActive = true ↔ (s.getV x).toNat ≠ 0) ∧ t.pc = s.pc + 2 ∧
      t.outcome = .continued ∧ UnchangedBut [.pc, .st] s t)

/-- R218: a timer tick takes one from each timer that is not 0, independently, and changes nothing else; a timer
at 0 stays at 0. That it keeps the marks of INIT_REG_POLICY, and completes where DT or ST holds no value under
fault_on_unwritten, is the model's choice (log entry 4, DESIGN CHOICE): the spec is silent there. -/
def Obligations.TimerTickDecaysBoth : Prop :=
  ∀ s : State, ∃ t, perform .timerTick s = (.nothing, t) ∧ t.dt.toNat = s.dt.toNat - 1 ∧
    t.st.toNat = s.st.toNat - 1 ∧ t.outcome = s.outcome ∧ UnchangedBut [.dt, .st] s t ∧
    t.written = s.written

/-- R222: the host's key change sets that key alone, and the core never writes a key. -/
def Obligations.SetKeyChangesOneKey : Prop :=
  (∀ (k : Fin 16) (b : Bool) (s : State), ∃ t, perform (.setKey k b) s = (.nothing, t) ∧ t.keys[k] = b ∧
    t.outcome = s.outcome ∧ UnchangedBut [.key k] s t) ∧
  (∀ s t : State, step s = .next t → t.keys = s.keys)

/-- R223, R227 (decisions D18, D38): a step the host performs gives back what the core's step answers. Under
KEY_MODEL = edge every key is false after it, and nothing else differs from what the core's step leaves; under
level the state is what the core's step leaves, its keys included. A step that faults leaves the state as it was
(R108), and the host clears the keys under edge after it too. -/
def Obligations.KeyModelActsAfterTheStep : Prop :=
  ∀ (s u : State) (r : Reply), perform .step s = (r, u) →
    (s.cfg.keyModel = .edge → ∀ k : Fin 16, u.keys[k] = false) ∧
    (s.cfg.keyModel = .level → ∀ k : Fin 16, u.keys[k] = s.keys[k]) ∧
    (∀ t, step s = .next t → r = .outcome t.outcome ∧ u.outcome = t.outcome ∧ u.written = t.written ∧
      Unchanged (fun c => s.cfg.keyModel = .edge ∧ ∃ k, c = .key k) t u) ∧
    (∀ f, step s = .fault f → r = .fault f ∧ u.outcome = s.outcome ∧ u.written = s.written ∧
      Unchanged (fun c => s.cfg.keyModel = .edge ∧ ∃ k, c = .key k) s u)

/-- R210: neither a timer tick, nor a key change, nor the faulting step as the host performs it clears a fault:
the next step returns the same fault, with the same information. -/
def Obligations.FaultsRepeat : Prop :=
  ∀ (s : State) (f : Fault), step s = .fault f →
    step s.timerTick = .fault f ∧ (∀ (k : Fin 16) (b : Bool), step (s.setKey k b) = .fault f) ∧
    step (perform .step s).2 = .fault f

/-! ### Reset, load, and the invariant (10_state.md, 70_reset_and_hazards.md) -/

/-- The glyph bytes of 10_state.md R35 as its table writes them, five to a digit from 0 to F. The spec takes them
from general knowledge (G3; log entry 7). -/
def glyphBytes : List Byte :=
  [0xF0, 0x90, 0x90, 0x90, 0xF0] ++ [0x20, 0x60, 0x20, 0x20, 0x70] ++ [0xF0, 0x10, 0xF0, 0x80, 0xF0] ++
  [0xF0, 0x10, 0xF0, 0x10, 0xF0] ++ [0x90, 0x90, 0xF0, 0x10, 0x10] ++ [0xF0, 0x80, 0xF0, 0x10, 0xF0] ++
  [0xF0, 0x80, 0xF0, 0x90, 0xF0] ++ [0xF0, 0x10, 0x20, 0x40, 0x40] ++ [0xF0, 0x90, 0xF0, 0x90, 0xF0] ++
  [0xF0, 0x90, 0xF0, 0x10, 0xF0] ++ [0xF0, 0x90, 0xF0, 0x90, 0x90] ++ [0xE0, 0x90, 0xE0, 0x90, 0xE0] ++
  [0xF0, 0x80, 0x80, 0x80, 0xF0] ++ [0xE0, 0x90, 0x90, 0x90, 0xE0] ++ [0xF0, 0x80, 0xF0, 0x80, 0xF0] ++
  [0xF0, 0x80, 0xF0, 0x80, 0x80]

/-- Construction leaves what the table of R39 says, in every configuration. The zeros of V, I, stack, SP, DT,
ST and keys are the spec's own decision D25 (log entry 6). `State.reset` is construction with all thirteen
defaults of R9, so its font region reads as the bytes of R35, which are the spec's general knowledge (G3; log
entry 7). -/
def Obligations.ConstructionLeavesTheResetValues : Prop :=
  (∀ cfg : Config, let s := State.construct cfg
    (∀ a : Fin 80, s.byte a.val = cfg.fontTable[a]) ∧ (∀ a, 0x050 ≤ a → a < 0x1000 → s.byte a = 0) ∧
    (∀ x : RegIdx, s.getV x = 0) ∧ s.index = 0 ∧ s.pc = 0x200 ∧ (∀ j : Fin 16, s.stack[j] = 0) ∧ s.sp = 0 ∧
    s.dt = 0 ∧ s.st = 0 ∧ (∀ k : Fin 16, s.keys[k] = false) ∧
    (∀ px py, px < 64 → py < 32 → s.pixel px py = false) ∧
    (∀ r, s.written.has r = false) ∧ s.cfg = cfg) ∧
  State.reset = State.construct Config.default ∧
  (Config.default.shiftSource = .vx ∧ Config.default.vfOrder = .flagLast ∧
    Config.default.logicVfReset = false ∧ Config.default.loadStoreIncrement = .none ∧
    Config.default.jumpOffsetReg = .v0 ∧ Config.default.strict59 = false ∧
    Config.default.sysPolicy = .decodeFault ∧ Config.default.fontTable.toList = glyphBytes ∧
    Config.default.fontDigitMode = .unmasked ∧
    Config.default.fontWritePolicy = .fault ∧ Config.default.keyIndexPolicy = .fault ∧
    Config.default.keyModel = .level ∧ Config.default.initRegPolicy = .zero) ∧
  (∀ a < 80, State.reset.byte a = glyphBytes.getD a 0)

/-- R241 (decision D35): an image of at most 3584 bytes is copied to 0x200 on, nothing else changes; a longer
one is refused. -/
def Obligations.LoadCopiesTheImage : Prop :=
  ∀ (s : State) (image : List Byte), Memory.wf s.cfg.fontTable s.mem = true →
    (image.length ≤ 3584 → ∃ t, s.load image = .next t ∧
      (∀ k < image.length, t.byte (0x200 + k) = image.getD k 0) ∧
      Unchanged (fun c => ∃ k < image.length, c = .mem (0x200 + k)) s t) ∧
    (3584 < image.length → s.load image = .refused (.imageTooLong image.length))

/-- The state after construction meets the invariant, in every configuration, and after any load. The bounds of
the stack slots, and the zero of slot 15, hold there by the reset zeros of decision D25 (log entry 6, DESIGN
CHOICE, unsafe). -/
def Obligations.BootMeetsTheInvariant : Prop :=
  (∀ cfg : Config, Inv (State.construct cfg)) ∧
  (∀ (s t : State) (image : List Byte), Inv s → s.load image = .next t → Inv t)

/-- Every step keeps the invariant: canonical memory, PC at most 0x10FE (R28), stack slots at most 0x1000 and
slot 15 never written (R29, R37), and the font region as constructed under FONT_WRITE_POLICY = fault (R59). -/
def Obligations.StepKeepsTheInvariant : Prop :=
  ∀ s t : State, Inv s → step s = .next t → Inv t

/-- Every state a run reaches, under any image and any interleaving of steps, timer ticks and key changes,
meets the invariant. That slot 15 is 0, and that a slot nothing has written is at most 0x1000, rests on the reset
zeros of decision D25 (log entry 6, DESIGN CHOICE, unsafe). -/
def Obligations.ReachableStatesMeetTheInvariant : Prop :=
  ∀ (cfg : Config) (image : List Byte) (s : State), Reachable cfg image s → Inv s

/-- R59, over whole runs: under FONT_WRITE_POLICY = fault no run changes a byte of the font table. -/
def Obligations.FontTableIsNeverMutated : Prop :=
  ∀ (cfg : Config) (image : List Byte) (s : State), cfg.fontWritePolicy = .fault →
    Reachable cfg image s → ∀ a : Fin 80, s.byte a.val = cfg.fontTable[a]
end

