-- ==== Sys2Proof/Laws/Decode.lean ====
section
/-! SUPPORT. The fields of an encoded word, and the two bytes of a word. -/

namespace Sys2Proof

@[simp] theorem toFin_nibble (k : Fin 16) : (nibble k).toFin = k := rfl

/-! ### Format NNN -/

@[simp] theorem fieldA_encodeNNN (a : BitVec 4) (nnn : Addr12) : fieldA (encodeNNN a nnn) = a := by
  ext i h
  simp only [fieldA, encodeNNN, BitVec.getElem_extractLsb']
  interval_cases i <;> simp

@[simp] theorem fieldNNN_encodeNNN (a : BitVec 4) (nnn : Addr12) : fieldNNN (encodeNNN a nnn) = nnn := by
  ext i h
  simp only [fieldNNN, encodeNNN, BitVec.getElem_extractLsb']
  interval_cases i <;> simp

/-! ### Formats XKK and XF -/

@[simp] theorem fieldA_encodeXKK (a : BitVec 4) (x : RegIdx) (kk : Byte) : fieldA (encodeXKK a x kk) = a := by
  ext i h
  simp only [fieldA, encodeXKK, BitVec.getElem_extractLsb']
  interval_cases i <;> simp

@[simp] theorem fieldX_encodeXKK (a : BitVec 4) (x : RegIdx) (kk : Byte) : fieldX (encodeXKK a x kk) = x := by
  have h : (encodeXKK a x kk).extractLsb' 8 4 = nibble x := by
    ext i h
    simp only [encodeXKK, BitVec.getElem_extractLsb']
    interval_cases i <;> simp
  rw [fieldX, h, toFin_nibble]

@[simp] theorem fieldKK_encodeXKK (a : BitVec 4) (x : RegIdx) (kk : Byte) :
    fieldKK (encodeXKK a x kk) = kk := by
  ext i h
  simp only [fieldKK, encodeXKK, BitVec.getElem_extractLsb']
  interval_cases i <;> simp

/-! ### Format XYN -/

@[simp] theorem fieldA_encodeXYN (a : BitVec 4) (x y : RegIdx) (n : BitVec 4) :
    fieldA (encodeXYN a x y n) = a := by
  ext i h
  simp only [fieldA, encodeXYN, BitVec.getElem_extractLsb']
  interval_cases i <;> simp

@[simp] theorem fieldX_encodeXYN (a : BitVec 4) (x y : RegIdx) (n : BitVec 4) :
    fieldX (encodeXYN a x y n) = x := by
  have h : (encodeXYN a x y n).extractLsb' 8 4 = nibble x := by
    ext i h
    simp only [encodeXYN, BitVec.getElem_extractLsb']
    interval_cases i <;> simp
  rw [fieldX, h, toFin_nibble]

@[simp] theorem fieldY_encodeXYN (a : BitVec 4) (x y : RegIdx) (n : BitVec 4) :
    fieldY (encodeXYN a x y n) = y := by
  have h : (encodeXYN a x y n).extractLsb' 4 4 = nibble y := by
    ext i h
    simp only [encodeXYN, BitVec.getElem_extractLsb']
    interval_cases i <;> simp
  rw [fieldY, h, toFin_nibble]

@[simp] theorem fieldN_encodeXYN (a : BitVec 4) (x y : RegIdx) (n : BitVec 4) :
    fieldN (encodeXYN a x y n) = n := by
  ext i h
  simp only [fieldN, encodeXYN, BitVec.getElem_extractLsb']
  interval_cases i <;> simp

/-! ### Bytes of a word -/

/-- A word stored high byte first reads back (20_memory.md R52). -/
@[simp] theorem wordOfBytes_bytes (w : Word) : wordOfBytes (highByte w) (lowByte w) = w := by
  ext i h
  simp only [wordOfBytes, highByte, lowByte]
  interval_cases i <;> simp

/-- The value of a word in memory, `mem[a] * 256 + mem[a+1]` (R52). -/
theorem toNat_wordOfBytes (hi lo : Byte) : (wordOfBytes hi lo).toNat = hi.toNat * 256 + lo.toNat := by
  have h1 : hi.toNat % 65536 = hi.toNat := Nat.mod_eq_of_lt (by have := hi.isLt; omega)
  have h2 : lo.toNat % 65536 = lo.toNat := Nat.mod_eq_of_lt (by have := lo.isLt; omega)
  have h3 : hi.toNat <<< 8 % 65536 = hi.toNat <<< 8 :=
    Nat.mod_eq_of_lt (by rw [Nat.shiftLeft_eq]; have := hi.isLt; omega)
  simp only [wordOfBytes, BitVec.toNat_or, BitVec.toNat_shiftLeft, BitVec.toNat_setWidth, Nat.reducePow, h1, h2,
    h3]
  rw [← Nat.shiftLeft_add_eq_or_of_lt lo.isLt hi.toNat, Nat.shiftLeft_eq]

end Sys2Proof
end

