-- ==== Sys2Proof/Laws/State.lean ====
section
/-! SUPPORT. One lemma per field per update of State, each true by definition, so that no proof unfolds a
record update; the reads of a register after a write; and what a byte store of a list leaves alone. -/

namespace Sys2Proof.Machine

/-! ### setV -/

@[simp] theorem State.setV_mem (s : State) (x : RegIdx) (b : Byte) : (s.setV x b).mem = s.mem := rfl
@[simp] theorem State.setV_v (s : State) (x : RegIdx) (b : Byte) : (s.setV x b).v = s.v.set x b := rfl
@[simp] theorem State.setV_index (s : State) (x : RegIdx) (b : Byte) : (s.setV x b).index = s.index := rfl
@[simp] theorem State.setV_pc (s : State) (x : RegIdx) (b : Byte) : (s.setV x b).pc = s.pc := rfl
@[simp] theorem State.setV_stack (s : State) (x : RegIdx) (b : Byte) : (s.setV x b).stack = s.stack := rfl
@[simp] theorem State.setV_sp (s : State) (x : RegIdx) (b : Byte) : (s.setV x b).sp = s.sp := rfl
@[simp] theorem State.setV_dt (s : State) (x : RegIdx) (b : Byte) : (s.setV x b).dt = s.dt := rfl
@[simp] theorem State.setV_st (s : State) (x : RegIdx) (b : Byte) : (s.setV x b).st = s.st := rfl
@[simp] theorem State.setV_keys (s : State) (x : RegIdx) (b : Byte) : (s.setV x b).keys = s.keys := rfl
@[simp] theorem State.setV_disp (s : State) (x : RegIdx) (b : Byte) : (s.setV x b).disp = s.disp := rfl
@[simp] theorem State.setV_cfg (s : State) (x : RegIdx) (b : Byte) : (s.setV x b).cfg = s.cfg := rfl
@[simp] theorem State.setV_outcome (s : State) (x : RegIdx) (b : Byte) : (s.setV x b).outcome = s.outcome := rfl
@[simp] theorem State.setV_draws (s : State) (x : RegIdx) (b : Byte) : (s.setV x b).draws = s.draws := rfl
theorem State.setV_written (s : State) (x : RegIdx) (b : Byte) : (s.setV x b).written = { s.written with v := s.written.v.set x true } := rfl

/-! ### setIndex -/

@[simp] theorem State.setIndex_mem (s : State) (w : Word) : (s.setIndex w).mem = s.mem := rfl
@[simp] theorem State.setIndex_v (s : State) (w : Word) : (s.setIndex w).v = s.v := rfl
@[simp] theorem State.setIndex_index (s : State) (w : Word) : (s.setIndex w).index = w := rfl
@[simp] theorem State.setIndex_pc (s : State) (w : Word) : (s.setIndex w).pc = s.pc := rfl
@[simp] theorem State.setIndex_stack (s : State) (w : Word) : (s.setIndex w).stack = s.stack := rfl
@[simp] theorem State.setIndex_sp (s : State) (w : Word) : (s.setIndex w).sp = s.sp := rfl
@[simp] theorem State.setIndex_dt (s : State) (w : Word) : (s.setIndex w).dt = s.dt := rfl
@[simp] theorem State.setIndex_st (s : State) (w : Word) : (s.setIndex w).st = s.st := rfl
@[simp] theorem State.setIndex_keys (s : State) (w : Word) : (s.setIndex w).keys = s.keys := rfl
@[simp] theorem State.setIndex_disp (s : State) (w : Word) : (s.setIndex w).disp = s.disp := rfl
@[simp] theorem State.setIndex_cfg (s : State) (w : Word) : (s.setIndex w).cfg = s.cfg := rfl
@[simp] theorem State.setIndex_outcome (s : State) (w : Word) : (s.setIndex w).outcome = s.outcome := rfl
@[simp] theorem State.setIndex_draws (s : State) (w : Word) : (s.setIndex w).draws = s.draws := rfl
theorem State.setIndex_written (s : State) (w : Word) : (s.setIndex w).written = { s.written with index := true } := rfl

/-! ### setDt -/

@[simp] theorem State.setDt_mem (s : State) (b : Byte) : (s.setDt b).mem = s.mem := rfl
@[simp] theorem State.setDt_v (s : State) (b : Byte) : (s.setDt b).v = s.v := rfl
@[simp] theorem State.setDt_index (s : State) (b : Byte) : (s.setDt b).index = s.index := rfl
@[simp] theorem State.setDt_pc (s : State) (b : Byte) : (s.setDt b).pc = s.pc := rfl
@[simp] theorem State.setDt_stack (s : State) (b : Byte) : (s.setDt b).stack = s.stack := rfl
@[simp] theorem State.setDt_sp (s : State) (b : Byte) : (s.setDt b).sp = s.sp := rfl
@[simp] theorem State.setDt_dt (s : State) (b : Byte) : (s.setDt b).dt = b := rfl
@[simp] theorem State.setDt_st (s : State) (b : Byte) : (s.setDt b).st = s.st := rfl
@[simp] theorem State.setDt_keys (s : State) (b : Byte) : (s.setDt b).keys = s.keys := rfl
@[simp] theorem State.setDt_disp (s : State) (b : Byte) : (s.setDt b).disp = s.disp := rfl
@[simp] theorem State.setDt_cfg (s : State) (b : Byte) : (s.setDt b).cfg = s.cfg := rfl
@[simp] theorem State.setDt_outcome (s : State) (b : Byte) : (s.setDt b).outcome = s.outcome := rfl
@[simp] theorem State.setDt_draws (s : State) (b : Byte) : (s.setDt b).draws = s.draws := rfl
theorem State.setDt_written (s : State) (b : Byte) : (s.setDt b).written = { s.written with dt := true } := rfl

/-! ### setSt -/

@[simp] theorem State.setSt_mem (s : State) (b : Byte) : (s.setSt b).mem = s.mem := rfl
@[simp] theorem State.setSt_v (s : State) (b : Byte) : (s.setSt b).v = s.v := rfl
@[simp] theorem State.setSt_index (s : State) (b : Byte) : (s.setSt b).index = s.index := rfl
@[simp] theorem State.setSt_pc (s : State) (b : Byte) : (s.setSt b).pc = s.pc := rfl
@[simp] theorem State.setSt_stack (s : State) (b : Byte) : (s.setSt b).stack = s.stack := rfl
@[simp] theorem State.setSt_sp (s : State) (b : Byte) : (s.setSt b).sp = s.sp := rfl
@[simp] theorem State.setSt_dt (s : State) (b : Byte) : (s.setSt b).dt = s.dt := rfl
@[simp] theorem State.setSt_st (s : State) (b : Byte) : (s.setSt b).st = b := rfl
@[simp] theorem State.setSt_keys (s : State) (b : Byte) : (s.setSt b).keys = s.keys := rfl
@[simp] theorem State.setSt_disp (s : State) (b : Byte) : (s.setSt b).disp = s.disp := rfl
@[simp] theorem State.setSt_cfg (s : State) (b : Byte) : (s.setSt b).cfg = s.cfg := rfl
@[simp] theorem State.setSt_outcome (s : State) (b : Byte) : (s.setSt b).outcome = s.outcome := rfl
@[simp] theorem State.setSt_draws (s : State) (b : Byte) : (s.setSt b).draws = s.draws := rfl
theorem State.setSt_written (s : State) (b : Byte) : (s.setSt b).written = { s.written with st := true } := rfl

/-! ### setByte -/

@[simp] theorem State.setByte_mem (s : State) (a : Nat) (b : Byte) : (s.setByte a b).mem = Memory.write s.cfg.fontTable s.mem a b := rfl
@[simp] theorem State.setByte_v (s : State) (a : Nat) (b : Byte) : (s.setByte a b).v = s.v := rfl
@[simp] theorem State.setByte_index (s : State) (a : Nat) (b : Byte) : (s.setByte a b).index = s.index := rfl
@[simp] theorem State.setByte_pc (s : State) (a : Nat) (b : Byte) : (s.setByte a b).pc = s.pc := rfl
@[simp] theorem State.setByte_stack (s : State) (a : Nat) (b : Byte) : (s.setByte a b).stack = s.stack := rfl
@[simp] theorem State.setByte_sp (s : State) (a : Nat) (b : Byte) : (s.setByte a b).sp = s.sp := rfl
@[simp] theorem State.setByte_dt (s : State) (a : Nat) (b : Byte) : (s.setByte a b).dt = s.dt := rfl
@[simp] theorem State.setByte_st (s : State) (a : Nat) (b : Byte) : (s.setByte a b).st = s.st := rfl
@[simp] theorem State.setByte_keys (s : State) (a : Nat) (b : Byte) : (s.setByte a b).keys = s.keys := rfl
@[simp] theorem State.setByte_disp (s : State) (a : Nat) (b : Byte) : (s.setByte a b).disp = s.disp := rfl
@[simp] theorem State.setByte_cfg (s : State) (a : Nat) (b : Byte) : (s.setByte a b).cfg = s.cfg := rfl
@[simp] theorem State.setByte_outcome (s : State) (a : Nat) (b : Byte) : (s.setByte a b).outcome = s.outcome := rfl
@[simp] theorem State.setByte_draws (s : State) (a : Nat) (b : Byte) : (s.setByte a b).draws = s.draws := rfl
@[simp] theorem State.setByte_written (s : State) (a : Nat) (b : Byte) : (s.setByte a b).written = s.written := rfl

/-! ### timerTick -/

@[simp] theorem State.timerTick_mem (s : State) : (s.timerTick).mem = s.mem := rfl
@[simp] theorem State.timerTick_v (s : State) : (s.timerTick).v = s.v := rfl
@[simp] theorem State.timerTick_index (s : State) : (s.timerTick).index = s.index := rfl
@[simp] theorem State.timerTick_pc (s : State) : (s.timerTick).pc = s.pc := rfl
@[simp] theorem State.timerTick_stack (s : State) : (s.timerTick).stack = s.stack := rfl
@[simp] theorem State.timerTick_sp (s : State) : (s.timerTick).sp = s.sp := rfl
@[simp] theorem State.timerTick_dt (s : State) : (s.timerTick).dt = decay s.dt := rfl
@[simp] theorem State.timerTick_st (s : State) : (s.timerTick).st = decay s.st := rfl
@[simp] theorem State.timerTick_keys (s : State) : (s.timerTick).keys = s.keys := rfl
@[simp] theorem State.timerTick_disp (s : State) : (s.timerTick).disp = s.disp := rfl
@[simp] theorem State.timerTick_cfg (s : State) : (s.timerTick).cfg = s.cfg := rfl
@[simp] theorem State.timerTick_outcome (s : State) : (s.timerTick).outcome = s.outcome := rfl
@[simp] theorem State.timerTick_draws (s : State) : (s.timerTick).draws = s.draws := rfl
@[simp] theorem State.timerTick_written (s : State) : (s.timerTick).written = s.written := rfl

/-! ### setKey -/

@[simp] theorem State.setKey_mem (s : State) (k : Fin 16) (b : Bool) : (s.setKey k b).mem = s.mem := rfl
@[simp] theorem State.setKey_v (s : State) (k : Fin 16) (b : Bool) : (s.setKey k b).v = s.v := rfl
@[simp] theorem State.setKey_index (s : State) (k : Fin 16) (b : Bool) : (s.setKey k b).index = s.index := rfl
@[simp] theorem State.setKey_pc (s : State) (k : Fin 16) (b : Bool) : (s.setKey k b).pc = s.pc := rfl
@[simp] theorem State.setKey_stack (s : State) (k : Fin 16) (b : Bool) : (s.setKey k b).stack = s.stack := rfl
@[simp] theorem State.setKey_sp (s : State) (k : Fin 16) (b : Bool) : (s.setKey k b).sp = s.sp := rfl
@[simp] theorem State.setKey_dt (s : State) (k : Fin 16) (b : Bool) : (s.setKey k b).dt = s.dt := rfl
@[simp] theorem State.setKey_st (s : State) (k : Fin 16) (b : Bool) : (s.setKey k b).st = s.st := rfl
@[simp] theorem State.setKey_keys (s : State) (k : Fin 16) (b : Bool) : (s.setKey k b).keys = s.keys.set k b := rfl
@[simp] theorem State.setKey_disp (s : State) (k : Fin 16) (b : Bool) : (s.setKey k b).disp = s.disp := rfl
@[simp] theorem State.setKey_cfg (s : State) (k : Fin 16) (b : Bool) : (s.setKey k b).cfg = s.cfg := rfl
@[simp] theorem State.setKey_outcome (s : State) (k : Fin 16) (b : Bool) : (s.setKey k b).outcome = s.outcome := rfl
@[simp] theorem State.setKey_draws (s : State) (k : Fin 16) (b : Bool) : (s.setKey k b).draws = s.draws := rfl
@[simp] theorem State.setKey_written (s : State) (k : Fin 16) (b : Bool) : (s.setKey k b).written = s.written := rfl

/-! ### clearKeys -/

@[simp] theorem State.clearKeys_mem (s : State) : (s.clearKeys).mem = s.mem := rfl
@[simp] theorem State.clearKeys_v (s : State) : (s.clearKeys).v = s.v := rfl
@[simp] theorem State.clearKeys_index (s : State) : (s.clearKeys).index = s.index := rfl
@[simp] theorem State.clearKeys_pc (s : State) : (s.clearKeys).pc = s.pc := rfl
@[simp] theorem State.clearKeys_stack (s : State) : (s.clearKeys).stack = s.stack := rfl
@[simp] theorem State.clearKeys_sp (s : State) : (s.clearKeys).sp = s.sp := rfl
@[simp] theorem State.clearKeys_dt (s : State) : (s.clearKeys).dt = s.dt := rfl
@[simp] theorem State.clearKeys_st (s : State) : (s.clearKeys).st = s.st := rfl
@[simp] theorem State.clearKeys_keys (s : State) : (s.clearKeys).keys = Vector.replicate 16 false := rfl
@[simp] theorem State.clearKeys_disp (s : State) : (s.clearKeys).disp = s.disp := rfl
@[simp] theorem State.clearKeys_cfg (s : State) : (s.clearKeys).cfg = s.cfg := rfl
@[simp] theorem State.clearKeys_outcome (s : State) : (s.clearKeys).outcome = s.outcome := rfl
@[simp] theorem State.clearKeys_draws (s : State) : (s.clearKeys).draws = s.draws := rfl
@[simp] theorem State.clearKeys_written (s : State) : (s.clearKeys).written = s.written := rfl

/-! ### setBytes, which changes memory alone -/

@[simp] theorem State.setBytes_v (s : State) (a : Nat) (bs : List Byte) : (s.setBytes a bs).v = s.v := by
  induction bs generalizing s a with
  | nil => rfl
  | cons b bs ih => exact (ih (s.setByte a b) (a + 1)).trans rfl

@[simp] theorem State.setBytes_index (s : State) (a : Nat) (bs : List Byte) : (s.setBytes a bs).index = s.index := by
  induction bs generalizing s a with
  | nil => rfl
  | cons b bs ih => exact (ih (s.setByte a b) (a + 1)).trans rfl

@[simp] theorem State.setBytes_pc (s : State) (a : Nat) (bs : List Byte) : (s.setBytes a bs).pc = s.pc := by
  induction bs generalizing s a with
  | nil => rfl
  | cons b bs ih => exact (ih (s.setByte a b) (a + 1)).trans rfl

@[simp] theorem State.setBytes_stack (s : State) (a : Nat) (bs : List Byte) : (s.setBytes a bs).stack = s.stack := by
  induction bs generalizing s a with
  | nil => rfl
  | cons b bs ih => exact (ih (s.setByte a b) (a + 1)).trans rfl

@[simp] theorem State.setBytes_sp (s : State) (a : Nat) (bs : List Byte) : (s.setBytes a bs).sp = s.sp := by
  induction bs generalizing s a with
  | nil => rfl
  | cons b bs ih => exact (ih (s.setByte a b) (a + 1)).trans rfl

@[simp] theorem State.setBytes_dt (s : State) (a : Nat) (bs : List Byte) : (s.setBytes a bs).dt = s.dt := by
  induction bs generalizing s a with
  | nil => rfl
  | cons b bs ih => exact (ih (s.setByte a b) (a + 1)).trans rfl

@[simp] theorem State.setBytes_st (s : State) (a : Nat) (bs : List Byte) : (s.setBytes a bs).st = s.st := by
  induction bs generalizing s a with
  | nil => rfl
  | cons b bs ih => exact (ih (s.setByte a b) (a + 1)).trans rfl

@[simp] theorem State.setBytes_keys (s : State) (a : Nat) (bs : List Byte) : (s.setBytes a bs).keys = s.keys := by
  induction bs generalizing s a with
  | nil => rfl
  | cons b bs ih => exact (ih (s.setByte a b) (a + 1)).trans rfl

@[simp] theorem State.setBytes_disp (s : State) (a : Nat) (bs : List Byte) : (s.setBytes a bs).disp = s.disp := by
  induction bs generalizing s a with
  | nil => rfl
  | cons b bs ih => exact (ih (s.setByte a b) (a + 1)).trans rfl

@[simp] theorem State.setBytes_cfg (s : State) (a : Nat) (bs : List Byte) : (s.setBytes a bs).cfg = s.cfg := by
  induction bs generalizing s a with
  | nil => rfl
  | cons b bs ih => exact (ih (s.setByte a b) (a + 1)).trans rfl

@[simp] theorem State.setBytes_outcome (s : State) (a : Nat) (bs : List Byte) : (s.setBytes a bs).outcome = s.outcome := by
  induction bs generalizing s a with
  | nil => rfl
  | cons b bs ih => exact (ih (s.setByte a b) (a + 1)).trans rfl

@[simp] theorem State.setBytes_draws (s : State) (a : Nat) (bs : List Byte) : (s.setBytes a bs).draws = s.draws := by
  induction bs generalizing s a with
  | nil => rfl
  | cons b bs ih => exact (ih (s.setByte a b) (a + 1)).trans rfl

@[simp] theorem State.setBytes_written (s : State) (a : Nat) (bs : List Byte) : (s.setBytes a bs).written = s.written := by
  induction bs generalizing s a with
  | nil => rfl
  | cons b bs ih => exact (ih (s.setByte a b) (a + 1)).trans rfl

/-! ### setRegisters, which changes V and its marks alone -/

@[simp] theorem State.setRegisters_mem (s : State) (k : Nat) (bs : List Byte) : (s.setRegisters k bs).mem = s.mem := by
  induction bs generalizing s k with
  | nil => rfl
  | cons b bs ih => exact (ih (s.setV (Fin.ofNat 16 k) b) (k + 1)).trans rfl

@[simp] theorem State.setRegisters_index (s : State) (k : Nat) (bs : List Byte) : (s.setRegisters k bs).index = s.index := by
  induction bs generalizing s k with
  | nil => rfl
  | cons b bs ih => exact (ih (s.setV (Fin.ofNat 16 k) b) (k + 1)).trans rfl

@[simp] theorem State.setRegisters_pc (s : State) (k : Nat) (bs : List Byte) : (s.setRegisters k bs).pc = s.pc := by
  induction bs generalizing s k with
  | nil => rfl
  | cons b bs ih => exact (ih (s.setV (Fin.ofNat 16 k) b) (k + 1)).trans rfl

@[simp] theorem State.setRegisters_stack (s : State) (k : Nat) (bs : List Byte) : (s.setRegisters k bs).stack = s.stack := by
  induction bs generalizing s k with
  | nil => rfl
  | cons b bs ih => exact (ih (s.setV (Fin.ofNat 16 k) b) (k + 1)).trans rfl

@[simp] theorem State.setRegisters_sp (s : State) (k : Nat) (bs : List Byte) : (s.setRegisters k bs).sp = s.sp := by
  induction bs generalizing s k with
  | nil => rfl
  | cons b bs ih => exact (ih (s.setV (Fin.ofNat 16 k) b) (k + 1)).trans rfl

@[simp] theorem State.setRegisters_dt (s : State) (k : Nat) (bs : List Byte) : (s.setRegisters k bs).dt = s.dt := by
  induction bs generalizing s k with
  | nil => rfl
  | cons b bs ih => exact (ih (s.setV (Fin.ofNat 16 k) b) (k + 1)).trans rfl

@[simp] theorem State.setRegisters_st (s : State) (k : Nat) (bs : List Byte) : (s.setRegisters k bs).st = s.st := by
  induction bs generalizing s k with
  | nil => rfl
  | cons b bs ih => exact (ih (s.setV (Fin.ofNat 16 k) b) (k + 1)).trans rfl

@[simp] theorem State.setRegisters_keys (s : State) (k : Nat) (bs : List Byte) : (s.setRegisters k bs).keys = s.keys := by
  induction bs generalizing s k with
  | nil => rfl
  | cons b bs ih => exact (ih (s.setV (Fin.ofNat 16 k) b) (k + 1)).trans rfl

@[simp] theorem State.setRegisters_disp (s : State) (k : Nat) (bs : List Byte) : (s.setRegisters k bs).disp = s.disp := by
  induction bs generalizing s k with
  | nil => rfl
  | cons b bs ih => exact (ih (s.setV (Fin.ofNat 16 k) b) (k + 1)).trans rfl

@[simp] theorem State.setRegisters_cfg (s : State) (k : Nat) (bs : List Byte) : (s.setRegisters k bs).cfg = s.cfg := by
  induction bs generalizing s k with
  | nil => rfl
  | cons b bs ih => exact (ih (s.setV (Fin.ofNat 16 k) b) (k + 1)).trans rfl

@[simp] theorem State.setRegisters_outcome (s : State) (k : Nat) (bs : List Byte) : (s.setRegisters k bs).outcome = s.outcome := by
  induction bs generalizing s k with
  | nil => rfl
  | cons b bs ih => exact (ih (s.setV (Fin.ofNat 16 k) b) (k + 1)).trans rfl

@[simp] theorem State.setRegisters_draws (s : State) (k : Nat) (bs : List Byte) : (s.setRegisters k bs).draws = s.draws := by
  induction bs generalizing s k with
  | nil => rfl
  | cons b bs ih => exact (ih (s.setV (Fin.ofNat 16 k) b) (k + 1)).trans rfl

/-! ### Reads after writes -/

/-- A register reads as its last write; the others as before. -/
@[simp] theorem State.getV_setV (s : State) (x y : RegIdx) (b : Byte) :
    (s.setV x b).getV y = if x = y then b else s.getV y := by
  simp [State.getV, Vector.getElem_set, Fin.ext_iff]

/-- A write marks its register and no other. -/
@[simp] theorem State.has_setV (s : State) (x : RegIdx) (b : Byte) (r : Reg) :
    (s.setV x b).written.has r = (s.written.has r || decide (r = .v x)) := by
  cases r with
  | v y =>
    by_cases h : y = x
    · subst h; simp [Written.has, State.setV_written]
    · have h' : ¬ (x : Nat) = (y : Nat) := fun e => h (Fin.ext e.symm)
      simp [Written.has, State.setV_written, h, h']
  | index => simp [Written.has, State.setV_written]
  | dt => simp [Written.has, State.setV_written]
  | st => simp [Written.has, State.setV_written]

@[simp] theorem State.has_setIndex (s : State) (w : Word) (r : Reg) :
    (s.setIndex w).written.has r = (s.written.has r || decide (r = .index)) := by
  cases r <;> simp [Written.has, State.setIndex_written]

@[simp] theorem State.has_setDt (s : State) (b : Byte) (r : Reg) :
    (s.setDt b).written.has r = (s.written.has r || decide (r = .dt)) := by
  cases r <;> simp [Written.has, State.setDt_written]

@[simp] theorem State.has_setSt (s : State) (b : Byte) (r : Reg) :
    (s.setSt b).written.has r = (s.written.has r || decide (r = .st)) := by
  cases r <;> simp [Written.has, State.setSt_written]

/-- A key reads as its last change; the others as before. -/
@[simp] theorem State.keys_setKey (s : State) (k j : Fin 16) (b : Bool) :
    (s.setKey k b).keys[j] = if k = j then b else s.keys[j] := by
  simp [Vector.getElem_set, Fin.ext_iff]

end Sys2Proof.Machine
end

