-- ==== Sys2Proof/Laws/Memory.lean ====
section
/-! SUPPORT. The laws of memory: a byte reads as its last write and every other byte as before, and every
write keeps the canonical form (20_memory.md R55, R60, R62). -/

namespace Sys2Proof.Machine

/-! ### The list of cells -/

theorem Memory.wfFrom_cons {font : FontTable} {lo a : Nat} {u : Byte} {m : List Host.Cell} :
    Memory.wfFrom font lo ((a, u) :: m) = true ↔
      lo ≤ a ∧ a < memSize ∧ u ≠ Memory.blank font a ∧ Memory.wfFrom font (a + 1) m = true := by
  simp [Memory.wfFrom, and_assoc]

theorem Memory.wfFrom_mono {font : FontTable} {lo lo' : Nat} {m : List Host.Cell} (hle : lo' ≤ lo)
    (h : Memory.wfFrom font lo m = true) : Memory.wfFrom font lo' m = true := by
  cases m with
  | nil => rfl
  | cons c m =>
    obtain ⟨a, u⟩ := c
    rw [Memory.wfFrom_cons] at h ⊢
    exact ⟨hle.trans h.1, h.2⟩

/-- An address below every listed one reads as unlisted. -/
theorem Memory.read_below {font : FontTable} {lo a : Nat} {m : List Host.Cell}
    (h : Memory.wfFrom font lo m = true) (ha : a < lo) : Memory.read font m a = Memory.blank font a := by
  induction m generalizing lo with
  | nil => rfl
  | cons c m ih =>
    obtain ⟨b, u⟩ := c
    rw [Memory.wfFrom_cons] at h
    have hne : a ≠ b := by omega
    simpa [Memory.read, hne] using ih h.2.2.2 (by omega)

/-- A byte reads as its last write, the others as before. -/
theorem Memory.read_write {font : FontTable} {lo : Nat} {m : List Host.Cell}
    (h : Memory.wfFrom font lo m = true) (a c : Nat) (val : Byte) :
    Memory.read font (Memory.write font m a val) c = if c = a then val else Memory.read font m c := by
  induction m generalizing lo with
  | nil =>
    by_cases hv : val = Memory.blank font a <;> by_cases hc : c = a <;>
      simp_all [Memory.write, Memory.read]
  | cons cell m ih =>
    obtain ⟨b, u⟩ := cell
    rw [Memory.wfFrom_cons] at h
    have below : ∀ d, d < b + 1 → Memory.read font m d = Memory.blank font d := fun d hd =>
      Memory.read_below h.2.2.2 hd
    rcases Nat.lt_trichotomy a b with hab | hab | hab
    · have hne : a ≠ b := by omega
      by_cases hv : val = Memory.blank font a <;> by_cases hc : c = a <;>
        simp_all [Memory.write, Memory.read]
      exact below a (by omega)
    · subst hab
      by_cases hv : val = Memory.blank font a <;> by_cases hc : c = a <;>
        simp_all [Memory.write, Memory.read]
    · have h1 : ¬ a < b := by omega
      have h2 : a ≠ b := by omega
      by_cases hcb : c = b
      · have : c ≠ a := by omega
        simp [Memory.write, Memory.read, h1, h2, hcb]
        omega
      · simp [Memory.write, Memory.read, h1, h2, hcb, ih h.2.2.2]

/-- A write inside memory keeps the canonical form. -/
theorem Memory.wfFrom_write {font : FontTable} {lo : Nat} {m : List Host.Cell} {a : Nat} {val : Byte}
    (h : Memory.wfFrom font lo m = true) (hlo : lo ≤ a) (ha : a < memSize) :
    Memory.wfFrom font lo (Memory.write font m a val) = true := by
  induction m generalizing lo with
  | nil =>
    by_cases hv : val = Memory.blank font a
    · simp [Memory.write, hv, Memory.wfFrom]
    · simp [Memory.write, hv, Memory.wfFrom, hlo, ha]
  | cons cell m ih =>
    obtain ⟨b, u⟩ := cell
    rw [Memory.wfFrom_cons] at h
    obtain ⟨h1, h2, h3, h4⟩ := h
    rcases Nat.lt_trichotomy a b with hab | hab | hab
    · by_cases hv : val = Memory.blank font a
      · simpa [Memory.write, hab, hv, Memory.wfFrom_cons] using ⟨h1, h2, h3, h4⟩
      · simpa [Memory.write, hab, hv, Memory.wfFrom_cons] using ⟨hlo, ha, h2, h3, h4⟩
    · subst hab
      by_cases hv : val = Memory.blank font a
      · simpa [Memory.write, hv] using Memory.wfFrom_mono (by omega) h4
      · simpa [Memory.write, hv, Memory.wfFrom_cons] using ⟨hlo, ha, h4⟩
    · have n1 : ¬ a < b := by omega
      have n2 : a ≠ b := by omega
      simpa [Memory.write, n1, n2, Memory.wfFrom_cons] using ⟨h1, h2, h3, ih h4 (by omega)⟩

/-! ### The bytes of a state -/

/-- The canonical form of a state's memory. -/
def State.memWf (s : State) : Prop := Memory.wf s.cfg.fontTable s.mem = true

theorem State.byte_of_eq {s t : State} (hm : t.mem = s.mem) (hc : t.cfg = s.cfg) (a : Nat) :
    t.byte a = s.byte a := by simp [State.byte, hm, hc]

theorem State.byte_setByte {s : State} (h : s.memWf) (a c : Nat) (b : Byte) :
    (s.setByte a b).byte c = if c = a then b else s.byte c :=
  Memory.read_write h a c b

theorem State.memWf_setByte {s : State} (h : s.memWf) {a : Nat} (ha : a < memSize) (b : Byte) :
    (s.setByte a b).memWf :=
  Memory.wfFrom_write h (Nat.zero_le a) ha

/-- A list of bytes stored inside memory keeps the canonical form. -/
theorem State.memWf_setBytes {s : State} (h : s.memWf) {a : Nat} {bs : List Byte}
    (ha : a + bs.length ≤ memSize) : (s.setBytes a bs).memWf := by
  induction bs generalizing s a with
  | nil => exact h
  | cons b bs ih =>
    simp only [List.length_cons] at ha
    exact ih (State.memWf_setByte h (by omega) b) (by omega)

/-- What memory reads after a list of bytes is stored inside it: the stored byte in the range, the old one
outside. -/
theorem State.byte_setBytes {s : State} (h : s.memWf) {a : Nat} {bs : List Byte}
    (ha : a + bs.length ≤ memSize) (c : Nat) :
    (s.setBytes a bs).byte c = if a ≤ c ∧ c < a + bs.length then bs.getD (c - a) 0 else s.byte c := by
  induction bs generalizing s a with
  | nil =>
    have : ¬ (a ≤ c ∧ c < a) := by omega
    simp [State.setBytes, this]
  | cons b bs ih =>
    simp only [List.length_cons] at ha
    rw [State.setBytes, ih (State.memWf_setByte h (by omega) b) (by omega), State.byte_setByte h]
    by_cases hc : c = a
    · subst hc
      simp
    · by_cases hin : a + 1 ≤ c ∧ c < a + 1 + bs.length
      · have h2 : a ≤ c ∧ c < a + (bs.length + 1) := by omega
        have h3 : c - a = (c - (a + 1)) + 1 := by omega
        rw [if_pos hin, List.length_cons, if_pos h2, h3]
        rfl
      · have h2 : ¬ (a ≤ c ∧ c < a + (bs.length + 1)) := by omega
        simp only [if_neg hin, if_neg hc, List.length_cons, if_neg h2]

theorem State.bytes_length (s : State) (a n : Nat) : (s.bytes a n).length = n := by simp [State.bytes]

theorem State.bytes_getD (s : State) {a n k : Nat} (h : k < n) : (s.bytes a n).getD k 0 = s.byte (a + k) := by
  simp [State.bytes, List.getD_eq_getElem?_getD, h]

theorem State.registers_length (s : State) (n : Nat) : (s.registers n).length = n := by simp [State.registers]

theorem State.registers_getD (s : State) {n k : Nat} (h : k < n) :
    (s.registers n).getD k 0 = s.getV (Fin.ofNat 16 k) := by
  simp [State.registers, List.getD_eq_getElem?_getD, h]

/-- Reading a register after a list is loaded from V[k] on. -/
theorem State.getV_setRegisters (s : State) (k : Nat) (bs : List Byte) (hk : k + bs.length ≤ 16) (x : RegIdx) :
    (s.setRegisters k bs).getV x =
      if k ≤ x.val ∧ x.val < k + bs.length then bs.getD (x.val - k) 0 else s.getV x := by
  induction bs generalizing s k with
  | nil =>
    have : ¬ (k ≤ x.val ∧ x.val < k) := by omega
    simp [State.setRegisters, this]
  | cons b bs ih =>
    simp only [List.length_cons] at hk
    rw [State.setRegisters, ih _ _ (by omega), State.getV_setV]
    have hval : (Fin.ofNat 16 k).val = k := Nat.mod_eq_of_lt (by omega)
    by_cases hx : x.val = k
    · have hkx : Fin.ofNat 16 k = x := Fin.ext (by rw [hval, hx])
      have hout : ¬ (k + 1 ≤ x.val ∧ x.val < k + 1 + bs.length) := by omega
      have hin : k ≤ x.val ∧ x.val < k + (bs.length + 1) := by omega
      rw [if_neg hout, if_pos hkx, List.length_cons, if_pos hin, hx, Nat.sub_self]
      rfl
    · have hne : ¬ Fin.ofNat 16 k = x := fun e => hx (by rw [← e, hval])
      by_cases hin : k + 1 ≤ x.val ∧ x.val < k + 1 + bs.length
      · have h2 : k ≤ x.val ∧ x.val < k + (bs.length + 1) := by omega
        have h3 : x.val - k = (x.val - (k + 1)) + 1 := by omega
        rw [if_pos hin, List.length_cons, if_pos h2, h3]
        rfl
      · have h2 : ¬ (k ≤ x.val ∧ x.val < k + (bs.length + 1)) := by omega
        simp only [if_neg hin, if_neg hne, List.length_cons, if_neg h2]

/-- The marks after a list is loaded from V[k] on. -/
theorem State.has_setRegisters (s : State) (k : Nat) (bs : List Byte) (r : Reg) :
    (s.setRegisters k bs).written.has r =
      (s.written.has r || ((List.range bs.length).any fun j => decide (r = .v (Fin.ofNat 16 (k + j))))) := by
  induction bs generalizing s k with
  | nil => simp [State.setRegisters]
  | cons b bs ih =>
    rw [State.setRegisters, ih, State.has_setV, List.length_cons, List.range_succ_eq_map, List.any_cons,
      List.any_map, Bool.or_assoc]
    simp only [Nat.add_zero, Function.comp_def, Nat.succ_eq_add_one, Nat.add_assoc, Nat.add_comm 1]

end Sys2Proof.Machine
end

