-- ==== Sys2Proof/Laws/Ops.lean ====
section
/-! SUPPORT. For each shared operation, once, everything it can do: the proofs about meanings cite these and
do not unfold the operations. -/

namespace Sys2Proof.Machine

/-! ### Reads of registers -/

theorem State.all_readable_iff (s : State) (rs : List Reg) : rs.all s.readable = true ↔ s.mayRead rs := by
  cases h : s.cfg.initRegPolicy <;> simp [State.readable, State.mayRead, h, List.all_eq_true]

/-- With its reads allowed, an instruction goes on. -/
theorem State.reading_of_mayRead {s : State} {rs : List Reg} (h : s.mayRead rs) (k : Result) :
    s.reading rs k = k := by
  simp [State.reading, (s.all_readable_iff rs).2 h]

/-- With a read of a register that holds no value, it is the fault of R205. -/
theorem State.reading_of_not_mayRead {s : State} {rs : List Reg} (h : ¬ s.mayRead rs) (k : Result) :
    s.reading rs k = .fault (.unspecified s.site .uninitializedRead) := by
  have : ¬ rs.all s.readable = true := fun e => h ((s.all_readable_iff rs).1 e)
  simp only [State.reading, if_neg this, State.raise]

theorem State.reading_next {s t : State} {rs : List Reg} {k : Result} (h : s.reading rs k = .next t) :
    s.mayRead rs ∧ k = .next t := by
  by_cases hr : s.mayRead rs
  · exact ⟨hr, by rwa [State.reading_of_mayRead hr] at h⟩
  · rw [State.reading_of_not_mayRead hr] at h
    cases h

/-! ### The end of a step -/

theorem State.goto_next {s t : State} {w : Word} {o : StepOutcome} (h : s.goto w o = .next t) :
    t = { s with pc := w, outcome := o } := by
  simpa [State.goto] using h.symm

theorem State.advance_next {s t : State} {o : StepOutcome} (h : s.advance o = .next t) :
    t = { s with pc := s.pc + 2, outcome := o } := State.goto_next h

theorem State.advance_eq (s : State) (o : StepOutcome) :
    s.advance o = .next { s with pc := s.pc + 2, outcome := o } := rfl

theorem State.goto_eq (s : State) (w : Word) (o : StepOutcome) :
    s.goto w o = .next { s with pc := w, outcome := o } := rfl

theorem State.skipIf_eq (s : State) (c : Bool) :
    s.skipIf c = .next { s with pc := s.pc + (if c then 4 else 2), outcome := .continued } := by
  have h : s.pc + 2 + 2 = s.pc + 4 := by
    rw [BitVec.add_assoc]
    rfl
  cases c with
  | false => rfl
  | true => exact congrArg (fun w => Host.Outcome.next { s with pc := w, outcome := .continued }) h

/-! ### Memory -/

theorem inBounds_iff {a n : Nat} : inBounds a n = true ↔ n = 0 ∨ a + n ≤ 0x1000 := by
  simp [inBounds, memSize]

/-- A read in bounds gives its bytes to the rest of the instruction. -/
theorem State.memRead_of_inBounds {s : State} {a n : Nat} (h : n = 0 ∨ a + n ≤ 0x1000)
    (k : List Byte → Result) : s.memRead a n k = k (s.bytes a n) := by
  simp [State.memRead, inBounds_iff.2 h]

/-- A read out of bounds is the fault of R204. -/
theorem State.memRead_of_not_inBounds {s : State} {a n : Nat} (h : ¬ (n = 0 ∨ a + n ≤ 0x1000))
    (k : List Byte → Result) : s.memRead a n k = .fault (.outOfBoundsMemoryAccess s.site a n) := by
  have : ¬ inBounds a n = true := fun e => h (inBounds_iff.1 e)
  simp only [State.memRead, if_neg this, State.raise]

theorem State.memRead_next {s t : State} {a n : Nat} {k : List Byte → Result} (h : s.memRead a n k = .next t) :
    (n = 0 ∨ a + n ≤ 0x1000) ∧ k (s.bytes a n) = .next t := by
  by_cases hb : n = 0 ∨ a + n ≤ 0x1000
  · exact ⟨hb, by rwa [State.memRead_of_inBounds hb] at h⟩
  · rw [State.memRead_of_not_inBounds hb] at h
    cases h

/-- A store of at least one byte in bounds, and outside the font region unless that is allowed, writes its
bytes. -/
theorem State.memWrite_of_ok {s : State} {a : Nat} {bs : List Byte} (hb : a + bs.length ≤ 0x1000)
    (hf : s.cfg.fontWritePolicy = .allow ∨ 0x050 ≤ a) (k : State → Result) :
    s.memWrite a bs k = k (s.setBytes a bs) := by
  have h1 : inBounds a bs.length = true := inBounds_iff.2 (Or.inr hb)
  have h2 : ¬ (s.cfg.fontWritePolicy = .fault ∧ 0 < bs.length ∧ a < fontEnd) := by
    rintro ⟨e, -, hlt⟩
    rcases hf with h | h
    · rw [h] at e
      cases e
    · exact absurd hlt (by simpa [fontEnd] using h)
  simp only [State.memWrite, h1, Bool.not_true, Bool.false_eq_true, if_false, if_neg h2]

/-- What a completed store says: its range was in bounds, and outside the font region unless allowed. -/
theorem State.memWrite_next {s t : State} {a : Nat} {bs : List Byte} {k : State → Result}
    (h : s.memWrite a bs k = .next t) :
    (bs.length = 0 ∨ a + bs.length ≤ 0x1000) ∧
      (s.cfg.fontWritePolicy = .fault → 0 < bs.length → 0x050 ≤ a) ∧ k (s.setBytes a bs) = .next t := by
  unfold State.memWrite at h
  split at h
  · cases h
  · rename_i hb
    split at h
    · cases h
    · rename_i hf
      have hb' : inBounds a bs.length = true := by simpa using hb
      refine ⟨inBounds_iff.1 hb', fun e hpos => ?_, h⟩
      have : ¬ a < fontEnd := fun hlt => hf ⟨e, hpos, hlt⟩
      simpa [fontEnd] using this

/-! ### The write of a result and a flag -/

/-- Every field but V and its marks is as before. -/
theorem State.setWithFlag_frame (s : State) (x : RegIdx) (r f : Byte) :
    s.setWithFlag x r f =
      { s with v := (s.setWithFlag x r f).v, written := (s.setWithFlag x r f).written } := by
  cases h : s.cfg.vfOrder <;> simp [State.setWithFlag, h, State.setV]

/-- R160: the destination holds the result and VF the flag; where they are one register, VF_ORDER decides. -/
theorem State.getV_setWithFlag (s : State) (x y : RegIdx) (r f : Byte) :
    (s.setWithFlag x r f).getV y =
      if y = 15 ∧ x = 15 then (if s.cfg.vfOrder = .flagLast then f else r)
      else if y = 15 then f else if y = x then r else s.getV y := by
  have e : (x = y) = (y = x) := propext eq_comm
  have e' : (15 = y) = (y = 15) := propext eq_comm
  cases h : s.cfg.vfOrder <;> by_cases hx : x = 15 <;> by_cases hy : y = 15 <;>
    simp [State.setWithFlag, h, flagReg, hx, hy, e, e']

/-- It marks the destination and VF. -/
theorem State.has_setWithFlag (s : State) (x : RegIdx) (r f : Byte) (q : Reg) :
    (s.setWithFlag x r f).written.has q = (s.written.has q || (decide (q = .v x) || decide (q = .v 15))) := by
  cases h : s.cfg.vfOrder with
  | flagLast => simp only [State.setWithFlag, h, flagReg, State.has_setV, Bool.or_assoc]
  | resultLast =>
    simp only [State.setWithFlag, h, flagReg, State.has_setV, Bool.or_assoc]
    rw [Bool.or_comm (decide (q = .v 15))]

end Sys2Proof.Machine
end

