-- ==== Sys2Proof/Laws/Display.lean ====
section
/-! SUPPORT. What drawing a sprite does to each pixel: no pixel is addressed twice (44_display.md R182), so
each set sprite bit turns its pixel over, and the collision is a set pixel turned off. -/

namespace Sys2Proof.Machine

/-- One pixel turned over. -/
def togglePixel (d : Drawing) (p : Nat) : Drawing := (d.1 ^^^ BitVec.twoPow 2048 p, d.2 || d.1.getLsbD p)

/-- The pixels of one sprite row's set bits. -/
def rowPixels (ox oy r : Nat) (row : Byte) : List Nat :=
  ((List.range 8).filter fun c => row.getLsbD (7 - c)).map fun c => pixelIndex (ox + c) (oy + r)

/-- The pixels of a sprite's set bits, from row `r` on. -/
def spritePixels (ox oy : Nat) : Nat → List Byte → List Nat
  | _, [] => []
  | r, row :: rows => rowPixels ox oy r row ++ spritePixels ox oy (r + 1) rows

theorem pixelIndex_lt (x y : Nat) : pixelIndex x y < 2048 := by
  unfold pixelIndex
  omega

theorem drawRow_eq_toggle (ox oy r : Nat) (row : Byte) (d : Drawing) :
    drawRow ox oy r row d = (rowPixels ox oy r row).foldl togglePixel d := by
  rw [rowPixels, List.foldl_map, List.foldl_filter]
  rfl

theorem drawRows_eq_toggle (ox oy r : Nat) (rows : List Byte) (d : Drawing) :
    drawRows ox oy r rows d = (spritePixels ox oy r rows).foldl togglePixel d := by
  induction rows generalizing r d with
  | nil => rfl
  | cons row rows ih => rw [drawRows, ih, drawRow_eq_toggle, spritePixels, List.foldl_append]

theorem mem_rowPixels {ox oy r p : Nat} {row : Byte} :
    p ∈ rowPixels ox oy r row ↔ ∃ c < 8, row.getLsbD (7 - c) = true ∧ pixelIndex (ox + c) (oy + r) = p := by
  simp [rowPixels, and_assoc]

theorem mem_spritePixels {ox oy r p : Nat} {rows : List Byte} :
    p ∈ spritePixels ox oy r rows ↔
      ∃ k < rows.length, ∃ c < 8, (rows.getD k 0).getLsbD (7 - c) = true ∧
        pixelIndex (ox + c) (oy + (r + k)) = p := by
  induction rows generalizing r with
  | nil => simp [spritePixels]
  | cons row rows ih =>
    rw [spritePixels, List.mem_append, mem_rowPixels, ih]
    constructor
    · rintro (⟨c, hc, hb, hp⟩ | ⟨k, hk, c, hc, hb, hp⟩)
      · exact ⟨0, by simp, c, hc, by simpa using hb, by simpa using hp⟩
      · exact ⟨k + 1, by simpa using hk, c, hc, by simpa using hb, by rw [← hp]; congr 1; omega⟩
    · rintro ⟨k, hk, c, hc, hb, hp⟩
      cases k with
      | zero => exact Or.inl ⟨c, hc, by simpa using hb, by simpa using hp⟩
      | succ k =>
        exact Or.inr ⟨k, by simpa using hk, c, hc, by simpa using hb, by rw [← hp]; congr 1; omega⟩

/-- Within 8 columns and 32 lines the wraparound maps no two bits to one pixel (R182). -/
theorem pixelIndex_inj {ox oy c c' r r' : Nat} (hc : c < 8) (hc' : c' < 8) (hr : r ≤ r' + 31) (hr' : r' ≤ r + 31)
    (h : pixelIndex (ox + c) (oy + r) = pixelIndex (ox + c') (oy + r')) : c = c' ∧ r = r' := by
  unfold pixelIndex at h
  omega

theorem nodup_rowPixels (ox oy r : Nat) (row : Byte) : (rowPixels ox oy r row).Nodup := by
  refine List.Nodup.map_on (fun c hc c' hc' h => ?_) (List.nodup_range.filter _)
  simp only [List.mem_filter, List.mem_range] at hc hc'
  exact (pixelIndex_inj hc.1 hc'.1 (by omega) (by omega) h).1

theorem nodup_spritePixels (ox oy r : Nat) (rows : List Byte) (h : rows.length ≤ 32) :
    (spritePixels ox oy r rows).Nodup := by
  induction rows generalizing r with
  | nil => simp [spritePixels]
  | cons row rows ih =>
    simp only [List.length_cons] at h
    rw [spritePixels, List.nodup_append]
    refine ⟨nodup_rowPixels .., ih _ (by omega), fun p hp q hq e => ?_⟩
    subst e
    obtain ⟨c, hc, -, hp⟩ := mem_rowPixels.1 hp
    obtain ⟨k, hk, c', hc', -, hq⟩ := mem_spritePixels.1 hq
    have := (pixelIndex_inj hc hc' (by omega) (by omega) (hp.trans hq.symm)).2
    omega

/-- Turning over distinct pixels: each listed pixel changes, no other does, and the collision is a listed
pixel that was set. -/
theorem toggle_fold (ps : List Nat) (hlt : ∀ p ∈ ps, p < 2048) (hnd : ps.Nodup) (d : Drawing) :
    (∀ q < 2048, (ps.foldl togglePixel d).1.getLsbD q = (d.1.getLsbD q ^^ decide (q ∈ ps))) ∧
      (ps.foldl togglePixel d).2 = (d.2 || ps.any fun p => d.1.getLsbD p) := by
  induction ps generalizing d with
  | nil => simp
  | cons p ps ih =>
    have hp : p < 2048 := hlt p (by simp)
    obtain ⟨hnot, hnd⟩ := List.nodup_cons.1 hnd
    obtain ⟨ih1, ih2⟩ := ih (fun q hq => hlt q (by simp [hq])) hnd (togglePixel d p)
    have hbit : ∀ q, q < 2048 → (togglePixel d p).1.getLsbD q = (d.1.getLsbD q ^^ decide (q = p)) := by
      intro q hq
      by_cases e : p = q
      · subst e
        simp [togglePixel, hp]
      · simp [togglePixel, e, Ne.symm e]
    constructor
    · intro q hq
      rw [List.foldl_cons, ih1 q hq, hbit q hq]
      by_cases e : q = p
      · subst e
        simp [hnot]
      · simp [e]
    · have hany : (ps.any fun q => (togglePixel d p).1.getLsbD q) = ps.any fun q => d.1.getLsbD q := by
        rw [Bool.eq_iff_iff, List.any_eq_true, List.any_eq_true]
        refine exists_congr fun q => and_congr_right fun hq => ?_
        have hne : q ≠ p := fun e => hnot (e ▸ hq)
        rw [hbit q (hlt q (by simp [hq]))]
        simp [hne]
      rw [List.foldl_cons, ih2, hany, List.any_cons, ← Bool.or_assoc]
      rfl

/-- A sprite bit falls on this pixel, with the wraparound of R181. -/
def spriteSets (ox oy : Byte) (rows : List Byte) (p : Nat) : Prop :=
  ∃ k < rows.length, ∃ c < 8, (rows.getD k 0).getLsbD (7 - c) = true ∧
    pixelIndex (ox.toNat + c) (oy.toNat + k) = p

/-- The one lemma of `drawSprite`: exactly the pixels under set bits turn over, and the collision says
whether one of them was set. -/
theorem drawSprite_spec (ox oy : Byte) (rows : List Byte) (h : rows.length ≤ 32) (disp : BitVec 2048) :
    (∀ q < 2048, spriteSets ox oy rows q →
        (drawSprite ox oy rows disp).1.getLsbD q = !disp.getLsbD q) ∧
      (∀ q < 2048, ¬ spriteSets ox oy rows q →
        (drawSprite ox oy rows disp).1.getLsbD q = disp.getLsbD q) ∧
      ((drawSprite ox oy rows disp).2 = true ↔
        ∃ q < 2048, spriteSets ox oy rows q ∧ disp.getLsbD q = true) := by
  have hmem : ∀ q, q ∈ spritePixels ox.toNat oy.toNat 0 rows ↔ spriteSets ox oy rows q := by
    intro q
    simp [mem_spritePixels, spriteSets]
  have hlt : ∀ q ∈ spritePixels ox.toNat oy.toNat 0 rows, q < 2048 := by
    intro q hq
    obtain ⟨k, -, c, -, -, hp⟩ := mem_spritePixels.1 hq
    exact hp ▸ pixelIndex_lt _ _
  obtain ⟨h1, h2⟩ := toggle_fold _ hlt (nodup_spritePixels ox.toNat oy.toNat 0 rows h) (disp, false)
  rw [drawSprite, drawRows_eq_toggle]
  refine ⟨fun q hq hs => ?_, fun q hq hs => ?_, ?_⟩
  · rw [h1 q hq, decide_eq_true ((hmem q).2 hs), Bool.xor_true]
  · rw [h1 q hq, decide_eq_false fun e => hs ((hmem q).1 e), Bool.xor_false]
  · rw [h2, Bool.false_or, List.any_eq_true]
    constructor
    · rintro ⟨q, hq, hset⟩
      exact ⟨q, hlt q hq, (hmem q).1 hq, hset⟩
    · rintro ⟨q, -, hs, hset⟩
      exact ⟨q, (hmem q).2 hs, hset⟩

end Sys2Proof.Machine
end

