-- ==== Sys2Proof/Laws/Frame.lean ====
section
/-! SUPPORT. The frame of each shared update, once, and how frames compose: a proof of an instruction's frame
is a chain of these. -/

namespace Sys2Proof.Machine

theorem Unchanged.mono {ch ch' : Component → Prop} {s t : State} (h : Unchanged ch s t)
    (hle : ∀ c, ch c → ch' c) : Unchanged ch' s t := fun c hc => h c fun e => hc (hle c e)

theorem Unchanged.refl (ch : Component → Prop) (s : State) : Unchanged ch s s := by
  intro c _
  cases c <;> simp [Component.same]

theorem Unchanged.trans {ch : Component → Prop} {s t u : State} (h : Unchanged ch s t)
    (h' : Unchanged ch t u) : Unchanged ch s u := by
  intro c hc
  have h1 := h c hc
  have h2 := h' c hc
  cases c <;> simp only [Component.same] at h1 h2 ⊢
  case v | index | dt | st => exact ⟨h2.1.trans h1.1, h2.2.trans h1.2⟩
  all_goals exact h2.trans h1

/-- The end of a step changes PC alone (and the outcome). -/
theorem Unchanged.end {ch : Component → Prop} {s t : State} (h : Unchanged ch s t) (hpc : ch .pc) (w : Word)
    (o : StepOutcome) : Unchanged ch s { t with pc := w, outcome := o } := by
  refine h.trans fun c hc => ?_
  cases c <;> first | exact absurd hpc hc | simp [Component.same, State.byte, State.getV]

theorem State.setV_frame (s : State) (x : RegIdx) (b : Byte) : Unchanged (· = .v x) s (s.setV x b) := by
  intro c hc
  cases c with
  | v y =>
    have hxy : ¬ x = y := fun e => hc (by rw [e])
    have hyx : ¬ y = x := fun e => hxy e.symm
    simp [Component.same, hxy, hyx]
  | _ => simp [Component.same, State.byte]

theorem State.setIndex_frame (s : State) (w : Word) : Unchanged (· = .index) s (s.setIndex w) := by
  intro c hc
  cases c <;> simp_all [Component.same, State.byte, State.getV]

theorem State.setDt_frame (s : State) (b : Byte) : Unchanged (· = .dt) s (s.setDt b) := by
  intro c hc
  cases c <;> simp_all [Component.same, State.byte, State.getV]

theorem State.setSt_frame (s : State) (b : Byte) : Unchanged (· = .st) s (s.setSt b) := by
  intro c hc
  cases c <;> simp_all [Component.same, State.byte, State.getV]

theorem State.setWithFlag_unchanged (s : State) (x : RegIdx) (r f : Byte) :
    Unchanged (fun c => c = .v x ∨ c = .v 15) s (s.setWithFlag x r f) := by
  have hx : ∀ t : State, ∀ b, Unchanged (fun c => c = .v x ∨ c = .v 15) t (t.setV x b) := fun t b =>
    (t.setV_frame x b).mono fun _ => Or.inl
  have hf : ∀ t : State, ∀ b, Unchanged (fun c => c = .v x ∨ c = .v 15) t (t.setV 15 b) := fun t b =>
    (t.setV_frame 15 b).mono fun _ => Or.inr
  cases h : s.cfg.vfOrder with
  | flagLast => simpa only [State.setWithFlag, h] using (hx s r).trans (hf _ f)
  | resultLast => simpa only [State.setWithFlag, h] using (hf s f).trans (hx _ r)

theorem State.setLogic_unchanged (s : State) (x : RegIdx) (r : Byte) :
    Unchanged (fun c => c = .v x ∨ (c = .v 15 ∧ s.cfg.logicVfReset = true)) s (s.setLogic x r) := by
  cases h : s.cfg.logicVfReset with
  | false => simpa only [State.setLogic, h, Bool.false_eq_true, if_false] using (s.setV_frame x r).mono fun _ => Or.inl
  | true =>
    simpa only [State.setLogic, h, if_true] using
      (s.setWithFlag_unchanged x r 0).mono fun c hc => hc.imp_right fun e => ⟨e, trivial⟩

theorem State.setRegisters_frame (s : State) (k : Nat) (bs : List Byte) :
    Unchanged (fun c => ∃ j, k ≤ j ∧ j < k + bs.length ∧ c = .v (Fin.ofNat 16 j)) s (s.setRegisters k bs) := by
  induction bs generalizing s k with
  | nil => exact Unchanged.refl _ s
  | cons b bs ih =>
    refine ((s.setV_frame (Fin.ofNat 16 k) b).mono fun c hc => ⟨k, le_rfl, by simp, hc⟩).trans ?_
    refine (ih (s.setV (Fin.ofNat 16 k) b) (k + 1)).mono fun c ⟨j, h1, h2, h3⟩ => ⟨j, by omega, ?_, h3⟩
    simp only [List.length_cons]
    omega

theorem State.setBytes_frame {s : State} (h : s.memWf) {a : Nat} {bs : List Byte} (ha : a + bs.length ≤ memSize) :
    Unchanged (fun c => ∃ k < bs.length, c = .mem (a + k)) s (s.setBytes a bs) := by
  intro c hc
  cases c with
  | mem b =>
    have hout : ¬ (a ≤ b ∧ b < a + bs.length) := by
      rintro ⟨h1, h2⟩
      exact hc ⟨b - a, by omega, by congr 1; omega⟩
    simp only [Component.same, State.byte_setBytes h ha, if_neg hout]
  | _ => simp [Component.same, State.getV]

/-- The transfers move I only under a LOADSTORE_I_INCREMENT other than none. -/
theorem State.stepIndex_frame (s : State) (x : RegIdx) :
    Unchanged (fun c => c = .index ∧ s.cfg.loadStoreIncrement ≠ .none) s (s.stepIndex x) := by
  cases h : s.cfg.loadStoreIncrement with
  | none => simpa only [State.stepIndex, h] using Unchanged.refl _ s
  | xPlus1 => simpa only [State.stepIndex, h] using (s.setIndex_frame _).mono fun c hc => ⟨hc, by simp⟩
  | x => simpa only [State.stepIndex, h] using (s.setIndex_frame _).mono fun c hc => ⟨hc, by simp⟩

/-- I after the transfers (42_load_index.md R146). -/
theorem State.stepIndex_index (s : State) (x : RegIdx) : (s.stepIndex x).index = indexAfter s.cfg s.index x := by
  cases h : s.cfg.loadStoreIncrement <;> simp [State.stepIndex, indexAfter, h]

end Sys2Proof.Machine
end

