-- ==== Sys2Proof/Laws/Exec.lean ====
section
/-! SUPPORT. What each instruction can do, once: the one inversion of `exec`. A proof about completed
instructions takes its case from here and unfolds no meaning. -/

namespace Sys2Proof.Machine

/-- PC where the step leaves it, and the outcome. -/
def State.ended (s : State) (target : Word) (o : StepOutcome := .continued) : State :=
  { s with pc := target, outcome := o }

@[simp] theorem State.ended_mem (s : State) (w : Word) (o : StepOutcome) : (s.ended w o).mem = s.mem := rfl
@[simp] theorem State.ended_v (s : State) (w : Word) (o : StepOutcome) : (s.ended w o).v = s.v := rfl
@[simp] theorem State.ended_index (s : State) (w : Word) (o : StepOutcome) : (s.ended w o).index = s.index := rfl
@[simp] theorem State.ended_pc (s : State) (w : Word) (o : StepOutcome) : (s.ended w o).pc = w := rfl
@[simp] theorem State.ended_stack (s : State) (w : Word) (o : StepOutcome) : (s.ended w o).stack = s.stack := rfl
@[simp] theorem State.ended_sp (s : State) (w : Word) (o : StepOutcome) : (s.ended w o).sp = s.sp := rfl
@[simp] theorem State.ended_dt (s : State) (w : Word) (o : StepOutcome) : (s.ended w o).dt = s.dt := rfl
@[simp] theorem State.ended_st (s : State) (w : Word) (o : StepOutcome) : (s.ended w o).st = s.st := rfl
@[simp] theorem State.ended_keys (s : State) (w : Word) (o : StepOutcome) : (s.ended w o).keys = s.keys := rfl
@[simp] theorem State.ended_disp (s : State) (w : Word) (o : StepOutcome) : (s.ended w o).disp = s.disp := rfl
@[simp] theorem State.ended_cfg (s : State) (w : Word) (o : StepOutcome) : (s.ended w o).cfg = s.cfg := rfl
@[simp] theorem State.ended_outcome (s : State) (w : Word) (o : StepOutcome) : (s.ended w o).outcome = o := rfl
@[simp] theorem State.ended_draws (s : State) (w : Word) (o : StepOutcome) : (s.ended w o).draws = s.draws := rfl
@[simp] theorem State.ended_written (s : State) (w : Word) (o : StepOutcome) :
    (s.ended w o).written = s.written := rfl
@[simp] theorem State.ended_byte (s : State) (w : Word) (o : StepOutcome) (a : Nat) :
    (s.ended w o).byte a = s.byte a := rfl
@[simp] theorem State.ended_getV (s : State) (w : Word) (o : StepOutcome) (x : RegIdx) :
    (s.ended w o).getV x = s.getV x := rfl

/-! ### What the writes of a result leave alone -/

@[simp] theorem State.setWithFlag_pc (s : State) (x : RegIdx) (r f : Byte) : (s.setWithFlag x r f).pc = s.pc := by
  rw [State.setWithFlag_frame]

@[simp] theorem State.setLogic_pc (s : State) (x : RegIdx) (r : Byte) : (s.setLogic x r).pc = s.pc := by
  cases h : s.cfg.logicVfReset <;> simp [State.setLogic, h]

/-- Every field but I and its mark is as before. -/
theorem State.stepIndex_only_index (s : State) (x : RegIdx) :
    s.stepIndex x = { s with index := (s.stepIndex x).index, written := (s.stepIndex x).written } := by
  cases h : s.cfg.loadStoreIncrement <;> simp [State.stepIndex, h, State.setIndex]

@[simp] theorem State.stepIndex_pc (s : State) (x : RegIdx) : (s.stepIndex x).pc = s.pc := by
  rw [State.stepIndex_only_index]

/-! ### The inversion -/

theorem State.reading_next_iff {s t : State} {rs : List Reg} {k : Result} :
    s.reading rs k = .next t ↔ s.mayRead rs ∧ k = .next t :=
  ⟨State.reading_next, fun h => (State.reading_of_mayRead h.1 k).trans h.2⟩

theorem State.memRead_next_iff {s t : State} {a n : Nat} {k : List Byte → Result} :
    s.memRead a n k = .next t ↔ (n = 0 ∨ a + n ≤ 0x1000) ∧ k (s.bytes a n) = .next t :=
  ⟨State.memRead_next, fun h => (State.memRead_of_inBounds h.1 k).trans h.2⟩

theorem State.memWrite_next_iff {s t : State} {a : Nat} {bs : List Byte} {k : State → Result} (hpos : 0 < bs.length) :
    s.memWrite a bs k = .next t ↔
      a + bs.length ≤ 0x1000 ∧ (s.cfg.fontWritePolicy = .fault → 0x050 ≤ a) ∧ k (s.setBytes a bs) = .next t := by
  constructor
  · intro h
    obtain ⟨h1, h2, h3⟩ := State.memWrite_next h
    exact ⟨by omega, fun e => h2 e hpos, h3⟩
  · rintro ⟨h1, h2, h3⟩
    refine (State.memWrite_of_ok h1 ?_ k).trans h3
    cases h : s.cfg.fontWritePolicy with
    | allow => exact Or.inl rfl
    | fault => exact Or.inr (h2 h)

theorem State.goto_next_iff {s t : State} {w : Word} {o : StepOutcome} :
    s.goto w o = .next t ↔ t = s.ended w o :=
  ⟨State.goto_next, fun h => h ▸ rfl⟩

theorem State.advance_next_iff {s t : State} {o : StepOutcome} :
    s.advance o = .next t ↔ t = s.ended (s.pc + 2) o := State.goto_next_iff

theorem State.skipIf_next_iff {s t : State} {c : Bool} :
    s.skipIf c = .next t ↔ t = s.ended (s.pc + (if c then 4 else 2)) := by
  rw [State.skipIf_eq]
  exact ⟨fun h => (Host.Outcome.next.inj h).symm, fun h => h ▸ rfl⟩

theorem State.withKey_next_iff {s t : State} {x : RegIdx} {k : Bool → Result} :
    s.withKey x k = .next t ↔ ∃ i, keyIndex? s.cfg (s.getV x) = some i ∧ k s.keys[i] = .next t := by
  unfold State.withKey
  cases keyIndex? s.cfg (s.getV x) <;> simp [State.raise]

/-- Every way an instruction completes: the guards on the state, and the state after. -/
def Effect (i : Instr) (s t : State) : Prop :=
  match i with
  | .sys _ => s.cfg.sysPolicy = .ignore ∧ t = s.ended (s.pc + 2)
  | .cls => t = { s with disp := 0 }.ended (s.pc + 2)
  | .ret => s.sp ≠ 0 ∧ t = { s with sp := s.sp - 1 }.ended s.stack[s.sp - 1]
  | .jp nnn => t = s.ended (nnn.setWidth 16)
  | .call nnn =>
    s.sp ≠ 15 ∧ t = { s with stack := s.stack.set s.sp (s.pc + 2), sp := s.sp + 1 }.ended (nnn.setWidth 16)
  | .seImm x kk => s.mayRead [.v x] ∧ t = s.ended (s.pc + (if s.getV x == kk then 4 else 2))
  | .sneImm x kk => s.mayRead [.v x] ∧ t = s.ended (s.pc + (if s.getV x != kk then 4 else 2))
  | .seReg x y => s.mayRead [.v x, .v y] ∧ t = s.ended (s.pc + (if s.getV x == s.getV y then 4 else 2))
  | .sneReg x y => s.mayRead [.v x, .v y] ∧ t = s.ended (s.pc + (if s.getV x != s.getV y then 4 else 2))
  | .ldImm x kk => t = (s.setV x kk).ended (s.pc + 2)
  | .addImm x kk => s.mayRead [.v x] ∧ t = (s.setV x (addResult (s.getV x) kk)).ended (s.pc + 2)
  | .ldReg x y => s.mayRead [.v y] ∧ t = (s.setV x (s.getV y)).ended (s.pc + 2)
  | .or x y => s.mayRead [.v x, .v y] ∧ t = (s.setLogic x (s.getV x ||| s.getV y)).ended (s.pc + 2)
  | .and x y => s.mayRead [.v x, .v y] ∧ t = (s.setLogic x (s.getV x &&& s.getV y)).ended (s.pc + 2)
  | .xor x y => s.mayRead [.v x, .v y] ∧ t = (s.setLogic x (s.getV x ^^^ s.getV y)).ended (s.pc + 2)
  | .addReg x y => s.mayRead [.v x, .v y] ∧
    t = (s.setWithFlag x (addResult (s.getV x) (s.getV y)) (carryFlag (s.getV x) (s.getV y))).ended (s.pc + 2)
  | .sub x y => s.mayRead [.v x, .v y] ∧
    t = (s.setWithFlag x (subResult (s.getV x) (s.getV y)) (noBorrowFlag (s.getV x) (s.getV y))).ended (s.pc + 2)
  | .subn x y => s.mayRead [.v x, .v y] ∧
    t = (s.setWithFlag x (subResult (s.getV y) (s.getV x)) (noBorrowFlag (s.getV y) (s.getV x))).ended (s.pc + 2)
  | .shr x y => s.mayRead [.v (shiftSourceReg s.cfg x y)] ∧
    t = (s.setWithFlag x (shrResult (s.getV (shiftSourceReg s.cfg x y)))
      (shrFlag (s.getV (shiftSourceReg s.cfg x y)))).ended (s.pc + 2)
  | .shl x y => s.mayRead [.v (shiftSourceReg s.cfg x y)] ∧
    t = (s.setWithFlag x (shlResult (s.getV (shiftSourceReg s.cfg x y)))
      (shlFlag (s.getV (shiftSourceReg s.cfg x y)))).ended (s.pc + 2)
  | .ldI nnn => t = (s.setIndex (nnn.setWidth 16)).ended (s.pc + 2)
  | .jpV0 nnn => s.mayRead [.v (jumpOffsetReg s.cfg nnn)] ∧
    t = s.ended (nnn.setWidth 16 + (s.getV (jumpOffsetReg s.cfg nnn)).setWidth 16)
  | .rnd x kk =>
    t = { s.setV x (Config.randomByte s.draws &&& kk) with draws := s.draws + 1 }.ended (s.pc + 2)
  | .drw x y n =>
    s.mayRead (if n = 0 then [.v x, .v y] else [.v x, .v y, .index]) ∧
    (n.val = 0 ∨ s.index.toNat + n.val ≤ 0x1000) ∧
    t = ({ s with disp := (drawSprite (s.getV x) (s.getV y) (s.bytes s.index.toNat n.val) s.disp).1 }.setV 15
      (flagOf (drawSprite (s.getV x) (s.getV y) (s.bytes s.index.toNat n.val) s.disp).2)).ended (s.pc + 2)
        .redrawRequested
  | .skp x => s.mayRead [.v x] ∧ ∃ k, keyIndex? s.cfg (s.getV x) = some k ∧
    t = s.ended (s.pc + (if s.keys[k] then 4 else 2))
  | .sknp x => s.mayRead [.v x] ∧ ∃ k, keyIndex? s.cfg (s.getV x) = some k ∧
    t = s.ended (s.pc + (if !s.keys[k] then 4 else 2))
  | .ldVDt x => s.mayRead [.dt] ∧ t = (s.setV x s.dt).ended (s.pc + 2)
  | .ldK x =>
    (∃ k, lowestKey? s.keys = some k ∧ t = (s.setV x (BitVec.ofNat 8 k.val)).ended (s.pc + 2)) ∨
    (lowestKey? s.keys = none ∧ t = s.ended s.pc .awaitInput)
  | .ldDtV x => s.mayRead [.v x] ∧ t = (s.setDt (s.getV x)).ended (s.pc + 2)
  | .ldStV x => s.mayRead [.v x] ∧ t = (s.setSt (s.getV x)).ended (s.pc + 2)
  | .addI x => s.mayRead [.index, .v x] ∧
    t = (s.setIndex (BitVec.ofNat 16 (s.index.toNat + (s.getV x).toNat))).ended (s.pc + 2)
  | .ldF x => s.mayRead [.v x] ∧ t = (s.setIndex (glyphAddress (fontDigit s.cfg (s.getV x)))).ended (s.pc + 2)
  | .ldB x => s.mayRead [.v x, .index] ∧ s.index.toNat + 3 ≤ 0x1000 ∧
    (s.cfg.fontWritePolicy = .fault → 0x050 ≤ s.index.toNat) ∧
    t = (s.setBytes s.index.toNat (bcdDigits (s.getV x))).ended (s.pc + 2)
  | .ldMemV x => s.mayRead (.index :: regsUpTo x) ∧ s.index.toNat + (x.val + 1) ≤ 0x1000 ∧
    (s.cfg.fontWritePolicy = .fault → 0x050 ≤ s.index.toNat) ∧
    t = ((s.setBytes s.index.toNat (s.registers (x.val + 1))).stepIndex x).ended (s.pc + 2)
  | .ldVMem x => s.mayRead [.index] ∧ s.index.toNat + (x.val + 1) ≤ 0x1000 ∧
    t = ((s.setRegisters 0 (s.bytes s.index.toNat (x.val + 1))).stepIndex x).ended (s.pc + 2)

/-- `exec` completes exactly in these ways. -/
theorem exec_next_iff (i : Instr) (s t : State) : exec i s = .next t ↔ Effect i s t := by
  cases i with
  | sys nnn => cases h : s.cfg.sysPolicy <;> simp [exec, execSys, Effect, h, State.raise, State.advance_next_iff]
  | ret =>
    by_cases h : s.sp = 0
    · simp [exec, execRet, Effect, h, State.raise]
    · simp only [exec, execRet, Effect, ne_eq, h, if_false, State.goto_next_iff, not_false_eq_true, true_and]
  | call nnn =>
    by_cases h : s.sp = 15
    · simp [exec, execCall, Effect, h, State.raise]
    · simp only [exec, execCall, Effect, ne_eq, h, if_false, State.goto_next_iff, State.next, not_false_eq_true,
        true_and]
  | ldK x =>
    simp only [exec, execLdK, Effect]
    cases lowestKey? s.keys <;> simp [State.advance_next_iff, State.goto_next_iff]
  | ldB x =>
    have h : (bcdDigits (s.getV x)).length = 3 := rfl
    simp [exec, execLdB, Effect, State.reading_next_iff, State.memWrite_next_iff, h, State.advance_next_iff]
  | ldMemV x =>
    simp [exec, execLdMemV, Effect, State.reading_next_iff, State.memWrite_next_iff, State.registers_length,
      State.advance_next_iff]
  | skp x => simp [exec, execSkp, Effect, State.reading_next_iff, State.withKey_next_iff, State.skipIf_next_iff]
  | sknp x => simp [exec, execSknp, Effect, State.reading_next_iff, State.withKey_next_iff, State.skipIf_next_iff]
  | cls => exact State.advance_next_iff
  | jp nnn => exact State.goto_next_iff
  | ldImm x kk => exact State.advance_next_iff
  | ldI nnn => exact State.advance_next_iff
  | rnd x kk => exact State.advance_next_iff
  | seImm x kk => exact State.reading_next_iff.trans (and_congr_right fun _ => State.skipIf_next_iff)
  | sneImm x kk => exact State.reading_next_iff.trans (and_congr_right fun _ => State.skipIf_next_iff)
  | seReg x y => exact State.reading_next_iff.trans (and_congr_right fun _ => State.skipIf_next_iff)
  | sneReg x y => exact State.reading_next_iff.trans (and_congr_right fun _ => State.skipIf_next_iff)
  | jpV0 nnn => exact State.reading_next_iff.trans (and_congr_right fun _ => State.goto_next_iff)
  | ldVMem x =>
    simp [exec, execLdVMem, Effect, State.reading_next_iff, State.memRead_next_iff, State.advance_next_iff]
  | drw x y n =>
    simp only [exec, execDrw, Effect, State.reading_next_iff, State.memRead_next_iff, State.advance_next_iff]
    rfl
  | addReg x y =>
    simp only [exec, execAddReg, Effect, State.reading_next_iff, State.advance_next_iff, State.setWithFlag_pc]
  | sub x y =>
    simp only [exec, execSub, Effect, State.reading_next_iff, State.advance_next_iff, State.setWithFlag_pc]
  | subn x y =>
    simp only [exec, execSubn, Effect, State.reading_next_iff, State.advance_next_iff, State.setWithFlag_pc]
  | shr x y =>
    simp only [exec, execShr, Effect, State.reading_next_iff, State.advance_next_iff, State.setWithFlag_pc]
  | shl x y =>
    simp only [exec, execShl, Effect, State.reading_next_iff, State.advance_next_iff, State.setWithFlag_pc]
  | or x y => simp only [exec, execOr, Effect, State.reading_next_iff, State.advance_next_iff, State.setLogic_pc]
  | and x y => simp only [exec, execAnd, Effect, State.reading_next_iff, State.advance_next_iff, State.setLogic_pc]
  | xor x y => simp only [exec, execXor, Effect, State.reading_next_iff, State.advance_next_iff, State.setLogic_pc]
  | addImm x kk => exact State.reading_next_iff.trans (and_congr_right fun _ => State.advance_next_iff)
  | ldReg x y => exact State.reading_next_iff.trans (and_congr_right fun _ => State.advance_next_iff)
  | ldVDt x => exact State.reading_next_iff.trans (and_congr_right fun _ => State.advance_next_iff)
  | ldDtV x => exact State.reading_next_iff.trans (and_congr_right fun _ => State.advance_next_iff)
  | ldStV x => exact State.reading_next_iff.trans (and_congr_right fun _ => State.advance_next_iff)
  | addI x => exact State.reading_next_iff.trans (and_congr_right fun _ => State.advance_next_iff)
  | ldF x => exact State.reading_next_iff.trans (and_congr_right fun _ => State.advance_next_iff)

end Sys2Proof.Machine
end

