-- ==== Sys2Proof/Laws/PerInstr.lean ====
section
/-! SUPPORT. Per-instruction laws, as LAWS.json names them: the word each opcode encodes to passes the mask
and match test of its row of the opcode map (30_encoding.md R86), whatever its operands. -/

namespace Sys2Proof.Laws

/-- The mask and match of the row of R86. -/
def rowTest : Instr → Word × Word
  | .sys _ => (0xF000, 0x0000)
  | .cls => (0xFFFF, 0x00E0)
  | .ret => (0xFFFF, 0x00EE)
  | .jp _ => (0xF000, 0x1000)
  | .call _ => (0xF000, 0x2000)
  | .seImm _ _ => (0xF000, 0x3000)
  | .sneImm _ _ => (0xF000, 0x4000)
  | .seReg _ _ => (0xF000, 0x5000)
  | .ldImm _ _ => (0xF000, 0x6000)
  | .addImm _ _ => (0xF000, 0x7000)
  | .ldReg _ _ => (0xF00F, 0x8000)
  | .or _ _ => (0xF00F, 0x8001)
  | .and _ _ => (0xF00F, 0x8002)
  | .xor _ _ => (0xF00F, 0x8003)
  | .addReg _ _ => (0xF00F, 0x8004)
  | .sub _ _ => (0xF00F, 0x8005)
  | .shr _ _ => (0xF00F, 0x8006)
  | .subn _ _ => (0xF00F, 0x8007)
  | .shl _ _ => (0xF00F, 0x800E)
  | .sneReg _ _ => (0xF000, 0x9000)
  | .ldI _ => (0xF000, 0xA000)
  | .jpV0 _ => (0xF000, 0xB000)
  | .rnd _ _ => (0xF000, 0xC000)
  | .drw _ _ _ => (0xF000, 0xD000)
  | .skp _ => (0xF0FF, 0xE09E)
  | .sknp _ => (0xF0FF, 0xE0A1)
  | .ldVDt _ => (0xF0FF, 0xF007)
  | .ldK _ => (0xF0FF, 0xF00A)
  | .ldDtV _ => (0xF0FF, 0xF015)
  | .ldStV _ => (0xF0FF, 0xF018)
  | .addI _ => (0xF0FF, 0xF01E)
  | .ldF _ => (0xF0FF, 0xF029)
  | .ldB _ => (0xF0FF, 0xF033)
  | .ldMemV _ => (0xF0FF, 0xF055)
  | .ldVMem _ => (0xF0FF, 0xF065)

/-- The word of an instruction passes its row's test. -/
def EncodeMatchesRow.Statement (i : Instr) : Prop := encode i &&& (rowTest i).1 = (rowTest i).2

/-- A word of format NNN under the mask 0xF000 is its leading nibble. -/
theorem encodeNNN_mask (a : BitVec 4) (nnn : Addr12) : encodeNNN a nnn &&& 0xF000 = a.setWidth 16 <<< 12 := by
  ext i h
  simp only [encodeNNN]
  interval_cases i <;> simp

/-- A word of format XKK under the mask 0xF000 is its leading nibble. -/
theorem encodeXKK_mask (a : BitVec 4) (x : RegIdx) (kk : Byte) :
    encodeXKK a x kk &&& 0xF000 = a.setWidth 16 <<< 12 := by
  ext i h
  simp only [encodeXKK]
  interval_cases i <;> simp

/-- A word of format XF under the mask 0xF0FF is its leading nibble and its function byte. -/
theorem encodeXF_mask (a : BitVec 4) (x : RegIdx) (f : Byte) :
    encodeXKK a x f &&& 0xF0FF = a.setWidth 16 <<< 12 ||| f.setWidth 16 := by
  ext i h
  simp only [encodeXKK]
  interval_cases i <;> simp

/-- A word of format XYN under the mask 0xF000 is its leading nibble. -/
theorem encodeXYN_mask (a : BitVec 4) (x y : RegIdx) (n : BitVec 4) :
    encodeXYN a x y n &&& 0xF000 = a.setWidth 16 <<< 12 := by
  ext i h
  simp only [encodeXYN]
  interval_cases i <;> simp

/-- A word of format XYN under the mask 0xF00F is its leading nibble and its lowest nibble. -/
theorem encodeXYN_mask_n (a : BitVec 4) (x y : RegIdx) (n : BitVec 4) :
    encodeXYN a x y n &&& 0xF00F = a.setWidth 16 <<< 12 ||| n.setWidth 16 := by
  ext i h
  simp only [encodeXYN]
  interval_cases i <;> simp

theorem EncodeMatchesRow.sys (nnn : Addr12) : EncodeMatchesRow.Statement (.sys nnn) :=
  (encodeNNN_mask _ nnn).trans rfl
theorem EncodeMatchesRow.cls : EncodeMatchesRow.Statement .cls :=
  rfl
theorem EncodeMatchesRow.ret : EncodeMatchesRow.Statement .ret :=
  rfl
theorem EncodeMatchesRow.jp (nnn : Addr12) : EncodeMatchesRow.Statement (.jp nnn) :=
  (encodeNNN_mask _ nnn).trans rfl
theorem EncodeMatchesRow.call (nnn : Addr12) : EncodeMatchesRow.Statement (.call nnn) :=
  (encodeNNN_mask _ nnn).trans rfl
theorem EncodeMatchesRow.seImm (x : RegIdx) (kk : Byte) : EncodeMatchesRow.Statement (.seImm x kk) :=
  (encodeXKK_mask _ x kk).trans rfl
theorem EncodeMatchesRow.sneImm (x : RegIdx) (kk : Byte) : EncodeMatchesRow.Statement (.sneImm x kk) :=
  (encodeXKK_mask _ x kk).trans rfl
theorem EncodeMatchesRow.seReg (x y : RegIdx) : EncodeMatchesRow.Statement (.seReg x y) :=
  (encodeXYN_mask _ x y _).trans rfl
theorem EncodeMatchesRow.ldImm (x : RegIdx) (kk : Byte) : EncodeMatchesRow.Statement (.ldImm x kk) :=
  (encodeXKK_mask _ x kk).trans rfl
theorem EncodeMatchesRow.addImm (x : RegIdx) (kk : Byte) : EncodeMatchesRow.Statement (.addImm x kk) :=
  (encodeXKK_mask _ x kk).trans rfl
theorem EncodeMatchesRow.ldReg (x y : RegIdx) : EncodeMatchesRow.Statement (.ldReg x y) :=
  (encodeXYN_mask_n _ x y _).trans rfl
theorem EncodeMatchesRow.or (x y : RegIdx) : EncodeMatchesRow.Statement (.or x y) :=
  (encodeXYN_mask_n _ x y _).trans rfl
theorem EncodeMatchesRow.and (x y : RegIdx) : EncodeMatchesRow.Statement (.and x y) :=
  (encodeXYN_mask_n _ x y _).trans rfl
theorem EncodeMatchesRow.xor (x y : RegIdx) : EncodeMatchesRow.Statement (.xor x y) :=
  (encodeXYN_mask_n _ x y _).trans rfl
theorem EncodeMatchesRow.addReg (x y : RegIdx) : EncodeMatchesRow.Statement (.addReg x y) :=
  (encodeXYN_mask_n _ x y _).trans rfl
theorem EncodeMatchesRow.sub (x y : RegIdx) : EncodeMatchesRow.Statement (.sub x y) :=
  (encodeXYN_mask_n _ x y _).trans rfl
theorem EncodeMatchesRow.shr (x y : RegIdx) : EncodeMatchesRow.Statement (.shr x y) :=
  (encodeXYN_mask_n _ x y _).trans rfl
theorem EncodeMatchesRow.subn (x y : RegIdx) : EncodeMatchesRow.Statement (.subn x y) :=
  (encodeXYN_mask_n _ x y _).trans rfl
theorem EncodeMatchesRow.shl (x y : RegIdx) : EncodeMatchesRow.Statement (.shl x y) :=
  (encodeXYN_mask_n _ x y _).trans rfl
theorem EncodeMatchesRow.sneReg (x y : RegIdx) : EncodeMatchesRow.Statement (.sneReg x y) :=
  (encodeXYN_mask _ x y _).trans rfl
theorem EncodeMatchesRow.ldI (nnn : Addr12) : EncodeMatchesRow.Statement (.ldI nnn) :=
  (encodeNNN_mask _ nnn).trans rfl
theorem EncodeMatchesRow.jpV0 (nnn : Addr12) : EncodeMatchesRow.Statement (.jpV0 nnn) :=
  (encodeNNN_mask _ nnn).trans rfl
theorem EncodeMatchesRow.rnd (x : RegIdx) (kk : Byte) : EncodeMatchesRow.Statement (.rnd x kk) :=
  (encodeXKK_mask _ x kk).trans rfl
theorem EncodeMatchesRow.drw (x y : RegIdx) (n : Fin 16) : EncodeMatchesRow.Statement (.drw x y n) :=
  (encodeXYN_mask _ x y _).trans rfl
theorem EncodeMatchesRow.skp (x : RegIdx) : EncodeMatchesRow.Statement (.skp x) :=
  (encodeXF_mask _ x _).trans rfl
theorem EncodeMatchesRow.sknp (x : RegIdx) : EncodeMatchesRow.Statement (.sknp x) :=
  (encodeXF_mask _ x _).trans rfl
theorem EncodeMatchesRow.ldVDt (x : RegIdx) : EncodeMatchesRow.Statement (.ldVDt x) :=
  (encodeXF_mask _ x _).trans rfl
theorem EncodeMatchesRow.ldK (x : RegIdx) : EncodeMatchesRow.Statement (.ldK x) :=
  (encodeXF_mask _ x _).trans rfl
theorem EncodeMatchesRow.ldDtV (x : RegIdx) : EncodeMatchesRow.Statement (.ldDtV x) :=
  (encodeXF_mask _ x _).trans rfl
theorem EncodeMatchesRow.ldStV (x : RegIdx) : EncodeMatchesRow.Statement (.ldStV x) :=
  (encodeXF_mask _ x _).trans rfl
theorem EncodeMatchesRow.addI (x : RegIdx) : EncodeMatchesRow.Statement (.addI x) :=
  (encodeXF_mask _ x _).trans rfl
theorem EncodeMatchesRow.ldF (x : RegIdx) : EncodeMatchesRow.Statement (.ldF x) :=
  (encodeXF_mask _ x _).trans rfl
theorem EncodeMatchesRow.ldB (x : RegIdx) : EncodeMatchesRow.Statement (.ldB x) :=
  (encodeXF_mask _ x _).trans rfl
theorem EncodeMatchesRow.ldMemV (x : RegIdx) : EncodeMatchesRow.Statement (.ldMemV x) :=
  (encodeXF_mask _ x _).trans rfl
theorem EncodeMatchesRow.ldVMem (x : RegIdx) : EncodeMatchesRow.Statement (.ldVMem x) :=
  (encodeXF_mask _ x _).trans rfl

end Sys2Proof.Laws
end

