-- ==== Sys2Proof/Laws/Step.lean ====
section
/-! SUPPORT. What the fetch, a step and a request of the host can do, once; and which key a wait takes. -/

namespace Sys2Proof.Machine

/-! ### The fetch and the step -/

/-- A fetch in bounds gives the big-endian word at PC. -/
theorem State.fetch?_of_le {s : State} (h : s.pc.toNat ≤ 0xFFE) :
    s.fetch? = some (wordOfBytes (s.byte s.pc.toNat) (s.byte (s.pc.toNat + 1))) := by
  have : inBounds s.pc.toNat 2 = true := inBounds_iff.2 (Or.inr (by omega))
  simp [State.fetch?, this]

/-- A fetch past 0xFFE gives nothing. -/
theorem State.fetch?_of_lt {s : State} (h : 0xFFE < s.pc.toNat) : s.fetch? = none := by
  have : ¬ inBounds s.pc.toNat 2 = true := fun e => by have := inBounds_iff.1 e; omega
  simp only [State.fetch?, if_neg this]

/-- A step that completes fetched a word, decoded it, and ran its handler. -/
theorem step_next {s t : State} (h : step s = .next t) :
    ∃ w i, s.pc.toNat ≤ 0xFFE ∧ s.fetch? = some w ∧ decode s.cfg w = .op i ∧ exec i s = .next t := by
  have hpc : s.pc.toNat ≤ 0xFFE := by
    by_contra hlt
    simp [step, State.fetch?_of_lt (Nat.lt_of_not_le hlt), State.raise] at h
  obtain ⟨w, hw⟩ : ∃ w, s.fetch? = some w := ⟨_, State.fetch?_of_le hpc⟩
  cases hd : decode s.cfg w with
  | decodeFault v => simp [step, hw, hd, State.raise] at h
  | op i => exact ⟨w, i, hpc, hw, hd, by simpa [step, hw, hd] using h⟩

/-! ### The host's requests -/

@[simp] theorem State.afterStep_mem (s : State) : s.afterStep.mem = s.mem := by
  cases h : s.cfg.keyModel <;> simp [State.afterStep, State.clearKeys, h]

@[simp] theorem State.afterStep_pc (s : State) : s.afterStep.pc = s.pc := by
  cases h : s.cfg.keyModel <;> simp [State.afterStep, State.clearKeys, h]

@[simp] theorem State.afterStep_stack (s : State) : s.afterStep.stack = s.stack := by
  cases h : s.cfg.keyModel <;> simp [State.afterStep, State.clearKeys, h]

@[simp] theorem State.afterStep_sp (s : State) : s.afterStep.sp = s.sp := by
  cases h : s.cfg.keyModel <;> simp [State.afterStep, State.clearKeys, h]

@[simp] theorem State.afterStep_cfg (s : State) : s.afterStep.cfg = s.cfg := by
  cases h : s.cfg.keyModel <;> simp [State.afterStep, State.clearKeys, h]

@[simp] theorem State.leftBy_next (s t : State) : s.leftBy (.next t) = t := rfl
@[simp] theorem State.leftBy_fault (s : State) (f : Fault) : s.leftBy (.fault f) = s := rfl
@[simp] theorem State.leftBy_refused (s : State) (r : Refusal) : s.leftBy (.refused r) = s := rfl

/-- A step the host performs leaves what the core's step leaves if it completes, and the state as it was if it
does not, each with the host's duty after it. -/
theorem perform_step_state (s : State) :
    (∃ t, step s = .next t ∧ (perform .step s).2 = t.afterStep) ∨ (perform .step s).2 = s.afterStep := by
  cases h : step s with
  | next t => exact Or.inl ⟨t, rfl, by simp [perform, h]⟩
  | fault f => exact Or.inr (by simp [perform, h])
  | refused r => exact Or.inr (by simp [perform, h])

/-- What holds of the state, and of every state a step, a tick or a key change makes of it, and survives the
host's duty, holds after any request. -/
theorem perform_state {P : State → Prop} (e : HostEvent) {s : State} (h : P s) (hduty : ∀ t, P t → P t.afterStep)
    (hstep : ∀ t, step s = .next t → P t) (htick : P s.timerTick) (hkey : ∀ k b, P (s.setKey k b)) :
    P (perform e s).2 := by
  cases e with
  | timerTick => exact htick
  | setKey k b => exact hkey k b
  | step =>
    obtain ⟨t, ht, e⟩ | e := perform_step_state s
    · exact e ▸ hduty t (hstep t ht)
    · exact e ▸ hduty s h

/-! ### The lowest pressed key -/

theorem lowestKey?_eq_none_iff {keys : Vector Bool 16} :
    lowestKey? keys = none ↔ ∀ k : Fin 16, keys[k] = false := by
  simp [lowestKey?, List.find?_eq_none]

theorem pressed_of_lowestKey? {keys : Vector Bool 16} {k : Fin 16} (h : lowestKey? keys = some k) :
    keys[k] = true := by
  simpa using List.find?_some h

/-- The key a wait takes is the pressed one below which none is pressed. -/
theorem lowestKey?_of_lowest {keys : Vector Bool 16} {k : Fin 16} (hk : keys[k] = true)
    (hlow : ∀ j < k, keys[j] = false) : lowestKey? keys = some k := by
  have hsorted : (List.finRange 16).Pairwise (· < ·) := by decide
  obtain ⟨as, bs, e⟩ := List.append_of_mem (List.mem_finRange k)
  refine List.find?_eq_some_iff_append.2 ⟨by simpa using hk, as, bs, e, fun j hj => ?_⟩
  rw [e, List.pairwise_append] at hsorted
  simpa using hlow j (hsorted.2.2 j hj k (by simp))

end Sys2Proof.Machine
end

