-- ==== Sys2Proof/Tests/Slice0.lean ====
section
/-! SUPPORT. Tests and witnesses. Expected values come from spec/95_test_vectors.md (its vector is named in
the comment) or from hand calculation over the cited rule; words are written out from 30_encoding.md R86. -/

-- Each test waits for the one before it: all at once they ask for more threads than the check allows.
set_option Elab.async false

namespace Sys2Proof.Tests

open Sys2Proof.Machine

/-! ### Helpers -/

/-- The default configuration with one parameter changed. -/
def ignoreSys : Config := { Config.default with sysPolicy := .ignore }
def strict : Config := { Config.default with strict59 := true }
def resultLast : Config := { Config.default with vfOrder := .resultLast }
def allowFont : Config := { Config.default with fontWritePolicy := .allow }
def lowNibbleKeys : Config := { Config.default with keyIndexPolicy := .lowNibble }
def edgeKeys : Config := { Config.default with keyModel := .edge }
def faultUnwritten : Config := { Config.default with initRegPolicy := .faultOnUnwritten }

/-- A state after construction, changed by `f`, with `w` stored at PC. -/
def start (w : Word) (f : State → State := id) (pc : Word := 0x200) (cfg : Config := Config.default) : State :=
  (f { State.construct cfg with pc := pc }).placeWord w

/-- The state a result goes on with. -/
def next? : Result → Option State
  | .next t => some t
  | .fault _ => none
  | .refused _ => none

/-- The fault of a result. -/
def fault? : Result → Option Fault
  | .next _ => none
  | .fault f => some f
  | .refused _ => none

/-- Vx, VF, PC and the outcome after a completed step. -/
def seen (x : RegIdx) (r : Result) : Option (Byte × Byte × Word × StepOutcome) :=
  (next? r).map fun t => (t.getV x, t.getV 15, t.pc, t.outcome)

/-- PC and the outcome after a completed step. -/
def went (r : Result) : Option (Word × StepOutcome) := (next? r).map fun t => (t.pc, t.outcome)

/-- I after a completed step, and VF. -/
def indexed (r : Result) : Option (Word × Byte) := (next? r).map fun t => (t.index, t.getV 15)

/-- The first `n` bytes at `a` after a completed step, and I. -/
def stored (a n : Nat) (r : Result) : Option (List Byte × Word) := (next? r).map fun t => (t.bytes a n, t.index)

/-- The pixels set after a completed step, as display indices, with VF and the outcome. -/
def drawn (r : Result) : Option (List Nat × Byte × StepOutcome) :=
  (next? r).map fun t => ((List.range 2048).filter fun p => t.disp.getLsbD p, t.getV 15, t.outcome)

/-! ### Decoding: words written out bit by bit from R86 -/

theorem test_decode_family_0 :
    decode Config.default 0b0000_0000_1110_0000#16 = .op .cls ∧
    decode Config.default 0b0000_0000_1110_1110#16 = .op .ret ∧
    decode ignoreSys 0b0000_0001_1110_0000#16 = .op (.sys 0x1E0#12) := by decide

theorem test_decode_families_1_to_4 :
    decode Config.default 0b0001_1010_1011_1100#16 = .op (.jp 0xABC#12) ∧
    decode Config.default 0b0010_0010_0001_0000#16 = .op (.call 0x210#12) ∧
    decode Config.default 0b0011_0011_0000_0111#16 = .op (.seImm 3 0x07#8) ∧
    decode Config.default 0b0100_0011_0000_1000#16 = .op (.sneImm 3 0x08#8) := by decide

theorem test_decode_families_5_to_7_and_9 :
    decode Config.default 0b0101_0001_0010_0011#16 = .op (.seReg 1 2) ∧
    decode Config.default 0b0110_1111_0010_1010#16 = .op (.ldImm 15 0x2A#8) ∧
    decode Config.default 0b0111_0001_0000_0010#16 = .op (.addImm 1 0x02#8) ∧
    decode strict 0b1001_0001_0010_0000#16 = .op (.sneReg 1 2) := by decide

theorem test_decode_family_8 :
    decode Config.default 0b1000_0111_0010_0000#16 = .op (.ldReg 7 2) ∧
    decode Config.default 0b1000_0001_0010_0001#16 = .op (.or 1 2) ∧
    decode Config.default 0b1000_0001_0010_0010#16 = .op (.and 1 2) ∧
    decode Config.default 0b1000_0001_0010_0011#16 = .op (.xor 1 2) ∧
    decode Config.default 0b1000_0001_0010_0100#16 = .op (.addReg 1 2) ∧
    decode Config.default 0b1000_0001_0010_0101#16 = .op (.sub 1 2) ∧
    decode Config.default 0b1000_0001_0010_0110#16 = .op (.shr 1 2) ∧
    decode Config.default 0b1000_0001_0010_0111#16 = .op (.subn 1 2) ∧
    decode Config.default 0b1000_0001_0010_1110#16 = .op (.shl 1 2) := by decide

theorem test_decode_families_A_to_D :
    decode Config.default 0b1010_0011_0000_0000#16 = .op (.ldI 0x300#12) ∧
    decode Config.default 0b1011_0010_0011_0100#16 = .op (.jpV0 0x234#12) ∧
    decode Config.default 0b1100_0000_0000_1111#16 = .op (.rnd 0 0x0F#8) ∧
    decode Config.default 0b1101_0001_0010_0000#16 = .op (.drw 1 2 0) := by decide

theorem test_decode_families_E_and_F :
    decode Config.default 0b1110_0001_1001_1110#16 = .op (.skp 1) ∧
    decode Config.default 0b1110_0001_1010_0001#16 = .op (.sknp 1) ∧
    decode Config.default 0b1111_0001_0000_0111#16 = .op (.ldVDt 1) ∧
    decode Config.default 0b1111_0011_0000_1010#16 = .op (.ldK 3) ∧
    decode Config.default 0b1111_0000_0001_0101#16 = .op (.ldDtV 0) ∧
    decode Config.default 0b1111_0010_0001_1000#16 = .op (.ldStV 2) ∧
    decode Config.default 0b1111_0001_0001_1110#16 = .op (.addI 1) ∧
    decode Config.default 0b1111_0000_0010_1001#16 = .op (.ldF 0) ∧
    decode Config.default 0b1111_0000_0011_0011#16 = .op (.ldB 0) ∧
    decode Config.default 0b1111_1111_0101_0101#16 = .op (.ldMemV 15) ∧
    decode Config.default 0b1111_0001_0110_0101#16 = .op (.ldVMem 1) := by decide

/-- D-3, D-5, D-8, D-10, D-11, D-15, D-17, D-18. -/
theorem test_decode_faults :
    decode Config.default 0x01E0#16 = .decodeFault 0x01E0#16 ∧ decode Config.default 0x0000#16 = .decodeFault 0#16 ∧
    decode strict 0x5123#16 = .decodeFault 0x5123#16 ∧ decode Config.default 0x8128#16 = .decodeFault 0x8128#16 ∧
    decode Config.default 0x812F#16 = .decodeFault 0x812F#16 ∧
    decode Config.default 0xE1A2#16 = .decodeFault 0xE1A2#16 ∧
    decode Config.default 0xF0FF#16 = .decodeFault 0xF0FF#16 ∧
    decode Config.default 0xF00B#16 = .decodeFault 0xF00B#16 := by decide

/-- Ill-formed terms: SYS where it is no opcode, and SYS with the words of CLS and RET (R88, R95). -/
theorem test_wellFormed_refuses :
    wellFormed Config.default (.sys 0x123#12) = false ∧ wellFormed ignoreSys (.sys 0x0E0#12) = false ∧
    wellFormed ignoreSys (.sys 0x0EE#12) = false ∧ wellFormed ignoreSys (.sys 0x123#12) = true := by decide

/-- A row's word and the SYS row under the default configuration (log entry 9). -/
theorem test_decodeTableWord :
    decodeTableWord 16 0xD125 = some (.drw 1 2 5) ∧ decodeTableWord 16 0x0123 = none := by decide

/-! ### The engine -/

/-- E-1: PC = 0xFFE is the last fetch. E-2, E-3: past it the fetch faults, and nothing wraps. -/
theorem test_fetch_bounds :
    went (step (start 0x00E0 id 0xFFE)) = some (0x1000, .continued) ∧
    fault? (step { State.reset with pc := 0x1000 }) =
      some (.outOfBoundsMemoryAccess ⟨0x1000, none⟩ 0x1000 2) ∧
    fault? (step { State.reset with pc := 0xFFF }) =
      some (.outOfBoundsMemoryAccess ⟨0xFFF, none⟩ 0xFFF 2) := by decide +kernel

/-- E-4: an odd PC is legal. -/
theorem test_odd_pc : seen 0 (step (start 0x6042 id 0x201)) = some (0x42, 0, 0x203, .continued) := by
  decide +kernel

/-- E-5, E-6: an illegal word, and the empty machine's first step. -/
theorem test_illegal_word :
    fault? (step (start 0xFFFF)) = some (.decodeFault ⟨0x200, some 0xFFFF⟩ 0xFFFF) ∧
    fault? (step State.reset) = some (.decodeFault ⟨0x200, some 0x0000⟩ 0x0000) := by decide +kernel

/-- The codes of R208. -/
theorem test_fault_codes :
    (fault? (step (start 0xFFFF))).map Fault.code = some 1 ∧
    (fault? (step (start 0x2500 fun s => { s with sp := 15 }))).map Fault.code = some 2 ∧
    (fault? (step (start 0x00EE))).map Fault.code = some 3 ∧
    (fault? (step { State.reset with pc := 0xFFF })).map Fault.code = some 4 ∧
    (fault? (step (start 0xF055))).map Fault.code = some 5 := by decide +kernel

/-- P6, its fourth step: the bytes LD [I],Vx stores over the next instruction are fetched next (D33). -/
theorem test_self_modifying :
    (next? (step (start 0xF155 (fun s => ((s.setV 0 0x12).setV 1 0x08).setIndex 0x208) 0x206))).bind State.fetch? =
      some 0x1208 := by decide +kernel

/-- R115: a self-jump is seen, a jump elsewhere is not. -/
theorem test_atSelfJump :
    (start 0x120A id 0x20A).atSelfJump = true ∧ (start 0x1208 id 0x20A).atSelfJump = false := by decide +kernel

/-! ### Control flow -/

/-- C-20 under SYS_POLICY = ignore. -/
theorem test_SYS_ignored :
    went (step (start 0x0123 id 0x200 ignoreSys)) = some (0x202, .continued) := by decide +kernel

/-- C-20 under the default policy. -/
theorem test_SYS_default :
    fault? (step (start 0x0123)) = some (.decodeFault ⟨0x200, some 0x0123⟩ 0x0123) := by decide +kernel

/-- C-3: SP falls, PC is the slot just released, which stays. -/
theorem test_RET : (next? (step (start 0x00EE fun s => { s with sp := 1, stack := s.stack.set 0 0x206 }))).map
    (fun t => (t.sp, t.pc, t.stack[0])) = some (0, 0x206, 0x206) := by decide +kernel

/-- C-6. -/
theorem test_RET_underflow :
    fault? (step (start 0x00EE id 0x210)) = some (.stackUnderflow ⟨0x210, some 0x00EE⟩ 0) := by decide +kernel

/-- C-1. -/
theorem test_JP : went (step (start 0x1208)) = some (0x208, .continued) := by decide +kernel

/-- C-7: the pushed address may be 0x1000. -/
theorem test_CALL : (next? (step (start 0x2300 id 0xFFE))).map (fun t => (t.stack[0], t.sp, t.pc)) =
    some (0x1000, 1, 0x300) := by decide +kernel

/-- C-5. -/
theorem test_CALL_overflow : fault? (step (start 0x2500 (fun s => { s with sp := 15 }) 0x400)) =
    some (.stackOverflow ⟨0x400, some 0x2500⟩ 15) := by decide +kernel

/-- C-8. -/
theorem test_SE_imm : went (step (start 0x3307 (·.setV 3 0x07))) = some (0x204, .continued) := by decide +kernel

/-- C-12: the skip at the end of memory leaves PC past it. -/
theorem test_SE_imm_end : went (step (start 0x3000 id 0xFFE)) = some (0x1002, .continued) := by decide +kernel

/-- C-10. -/
theorem test_SNE_imm : went (step (start 0x4308 (·.setV 3 0x07))) = some (0x204, .continued) := by decide +kernel

/-- C-11. -/
theorem test_SNE_imm_equal : went (step (start 0x4307 (·.setV 3 0x07))) = some (0x202, .continued) := by
  decide +kernel

/-- C-16: n is not examined by default. -/
theorem test_SE_reg : went (step (start 0x5123 (fun s => (s.setV 1 0x05).setV 2 0x05) 0x206)) =
    some (0x20A, .continued) := by decide +kernel

/-- C-16 with x and y different. -/
theorem test_SE_reg_differ : went (step (start 0x5120 (·.setV 1 0x05))) = some (0x202, .continued) := by
  decide +kernel

/-- C-15: x = y never skips. -/
theorem test_SNE_reg : went (step (start 0x9110 (·.setV 1 0x33))) = some (0x202, .continued) := by decide +kernel

/-- R127 with different values. -/
theorem test_SNE_reg_differ : went (step (start 0x9120 (·.setV 1 0x33))) = some (0x204, .continued) := by
  decide +kernel

/-- C-18: the target is not reduced. -/
theorem test_JP_V0 : went (step (start 0xBFFF (·.setV 0 0xFF))) = some (0x10FE, .continued) := by decide +kernel

/-- C-19 under JUMP_OFFSET_REG = vx. -/
theorem test_JP_V0_vx :
    went (step (start 0xB210 (fun s => (s.setV 0 0x01).setV 2 0x05) 0x200
      { Config.default with jumpOffsetReg := .vx })) = some (0x215, .continued) := by decide +kernel

/-! ### Loads, index, memory -/

/-- M-1. -/
theorem test_LD_imm : seen 15 (step (start 0x6F2A)) = some (0x2A, 0x2A, 0x202, .continued) := by decide +kernel

/-- M-2. -/
theorem test_LD_reg : seen 7 (step (start 0x8720 (·.setV 2 0x11))) = some (0x11, 0, 0x202, .continued) := by
  decide +kernel

/-- M-3. -/
theorem test_LD_I : indexed (step (start 0xA300)) = some (0x300, 0) := by decide +kernel

/-- M-4: past 0xFFF no reduction and no flag. -/
theorem test_ADD_I : indexed (step (start 0xF11E fun s => (s.setV 1 0x02).setIndex 0x0FFF)) = some (0x1001, 0) := by
  decide +kernel

/-- M-5: mod 2^16. -/
theorem test_ADD_I_wrap :
    indexed (step (start 0xF11E fun s => (s.setV 1 0x20).setIndex 0xFFF0)) = some (0x0010, 0) := by decide +kernel

/-- M-9 by default. -/
theorem test_LD_F : indexed (step (start 0xF029 (·.setV 0 0xFF))) = some (0x04FB, 0) := by decide +kernel

/-- M-9 under FONT_DIGIT_MODE = low_nibble. -/
theorem test_LD_F_low_nibble :
    indexed (step (start 0xF029 (·.setV 0 0xFF) 0x200 { Config.default with fontDigitMode := .lowNibble })) =
      some (0x004B, 0) := by decide +kernel

/-- M-15: the last three bytes of memory. -/
theorem test_LD_B : stored 0xFFD 3 (step (start 0xF033 fun s => (s.setV 0 0x7B).setIndex 0xFFD)) =
    some ([1, 2, 3], 0xFFD) := by decide +kernel

/-- M-17 by default; M-16. -/
theorem test_LD_B_faults :
    fault? (step (start 0xF033 fun s => (s.setV 0 0x7B).setIndex 0x04E)) =
      some (.unspecified ⟨0x200, some 0xF033⟩ .fontRegionWrite) ∧
    fault? (step (start 0xF033 fun s => (s.setV 0 0x7B).setIndex 0xFFE)) =
      some (.outOfBoundsMemoryAccess ⟨0x200, some 0xF033⟩ 0xFFE 3) := by decide +kernel

/-- M-19 under LOADSTORE_I_INCREMENT = x_plus_1. -/
theorem test_LD_mem_V :
    stored 0x300 3 (step (start 0xF155 (fun s => (((s.setV 0 1).setV 1 2).setV 2 9).setIndex 0x300) 0x200
      { Config.default with loadStoreIncrement := .xPlus1 })) = some ([1, 2, 0], 0x302) := by decide +kernel

/-- M-21: one byte too many. -/
theorem test_LD_mem_V_fault : fault? (step (start 0xFF55 (·.setIndex 0xFF1))) =
    some (.outOfBoundsMemoryAccess ⟨0x200, some 0xFF55⟩ 0xFF1 16) := by decide +kernel

/-- M-27: the font is ordinary memory to a load; V5 is beyond x. -/
theorem test_LD_V_mem :
    (next? (step (start 0xF465 (·.setV 5 0x77)))).map (fun t => t.registers 6) =
      some [0xF0, 0x90, 0x90, 0x90, 0xF0, 0x77] := by decide +kernel

/-- M-25 under LOADSTORE_I_INCREMENT = x_plus_1: I leaves memory, which is legal (R26). -/
theorem test_LD_V_mem_end :
    (next? (step (start 0xF065 (fun s => (s.setByte 0xFFF 0xAB).setIndex 0xFFF) 0x200
      { Config.default with loadStoreIncrement := .xPlus1 }))).map (fun t => (t.getV 0, t.index)) =
      some (0xAB, 0x1000) := by decide +kernel

/-! ### Arithmetic, logic, shifts, random -/

/-- A-1: no flag. -/
theorem test_ADD_imm : seen 1 (step (start 0x7102 (·.setV 1 0xFF))) = some (0x01, 0x00, 0x202, .continued) := by
  decide +kernel

/-- A-3 by default. -/
theorem test_OR : seen 1 (step (start 0x8121 fun s => ((s.setV 1 0x0C).setV 2 0x0A).setV 15 0x55)) =
    some (0x0E, 0x55, 0x202, .continued) := by decide +kernel

/-- A-3 under LOGIC_VF_RESET. -/
theorem test_OR_reset : seen 1 (step (start 0x8121 (fun s => ((s.setV 1 0x0C).setV 2 0x0A).setV 15 0x55) 0x200
    { Config.default with logicVfReset := true })) = some (0x0E, 0x00, 0x202, .continued) := by decide +kernel

/-- A-4. -/
theorem test_AND : seen 1 (step (start 0x8122 fun s => (s.setV 1 0x0C).setV 2 0x0A)) =
    some (0x08, 0x00, 0x202, .continued) := by decide +kernel

/-- A-5. -/
theorem test_XOR : seen 1 (step (start 0x8123 fun s => (s.setV 1 0x0C).setV 2 0x0A)) =
    some (0x06, 0x00, 0x202, .continued) := by decide +kernel

/-- A-11: VF is read before the flag lands. -/
theorem test_ADD_reg : seen 1 (step (start 0x81F4 fun s => (s.setV 1 0x01).setV 15 0xFF)) =
    some (0x00, 0x01, 0x202, .continued) := by decide +kernel

/-- A-12 under VF_ORDER = result_last. -/
theorem test_ADD_reg_result_last : seen 15 (step (start 0x8F14 (fun s => (s.setV 15 0x10).setV 1 0xF5) 0x200 resultLast)) =
    some (0x05, 0x05, 0x202, .continued) := by decide +kernel

/-- L1.2. -/
theorem test_SUB : seen 1 (step (start 0x8125 fun s => (s.setV 1 0x05).setV 2 0xC0)) =
    some (0x45, 0x00, 0x202, .continued) := by decide +kernel

/-- A-17 under VF_ORDER = flag_last. -/
theorem test_SUB_VF : seen 15 (step (start 0x8F15 fun s => (s.setV 15 0x03).setV 1 0x01)) =
    some (0x01, 0x01, 0x202, .continued) := by decide +kernel

/-- L1.3. -/
theorem test_SHR : seen 1 (step (start 0x8106 (·.setV 1 0x05))) = some (0x02, 0x01, 0x202, .continued) := by
  decide +kernel

/-- A-21 under SHIFT_SOURCE = vy. -/
theorem test_SHR_vy : seen 1 (step (start 0x8126 (·.setV 2 0x03) 0x200
    { Config.default with shiftSource := .vy })) = some (0x01, 0x01, 0x202, .continued) := by decide +kernel

/-- A-23: Vy - Vx. -/
theorem test_SUBN : seen 1 (step (start 0x8127 fun s => (s.setV 1 0x05).setV 2 0xC0)) =
    some (0xBB, 0x01, 0x202, .continued) := by decide +kernel

/-- A-25: equal values do not borrow. -/
theorem test_SUBN_equal : seen 1 (step (start 0x8127 fun s => (s.setV 1 0x42).setV 2 0x42)) =
    some (0x00, 0x01, 0x202, .continued) := by decide +kernel

/-- A-26. -/
theorem test_SHL : seen 4 (step (start 0x840E (·.setV 4 0x81))) = some (0x02, 0x01, 0x202, .continued) := by
  decide +kernel

/-- A-28. -/
theorem test_SHL_no_carry : seen 4 (step (start 0x840E (·.setV 4 0x7F))) =
    some (0xFE, 0x00, 0x202, .continued) := by decide +kernel

/-- A-30 with `r` as the argument of R101. -/
theorem test_RND : seen 0 (randomMasked 0 0x0F 0xB7 State.reset) = some (0x07, 0x00, 0x202, .continued) := by
  decide +kernel

/-! ### Display -/

/-- G-1: Continue, VF kept. -/
theorem test_CLS : drawn (step (start 0x00E0 fun s => { s.setV 15 0x07 with disp := BitVec.allOnes 2048 })) =
    some ([], 0x07, .continued) := by decide +kernel

/-- G-2: row 31, columns 0 to 5, 62 and 63. -/
theorem test_DRW_wrap :
    drawn (step (start 0xD121 fun s => (((s.setV 1 62).setV 2 31).setByte 0x300 0xFF).setIndex 0x300)) =
      some ([1984, 1985, 1986, 1987, 1988, 1989, 2046, 2047], 0, .redrawRequested) := by decide +kernel

/-- L1.4: the pre-set pixel 8*64+12 goes off, VF = 1. -/
theorem test_DRW_collision :
    drawn (step (start 0xD122 fun s =>
      { (((s.setV 1 5).setV 2 7).setByte 0x301 0x01).setIndex 0x300 with disp := BitVec.twoPow 2048 524 })) =
      some ([], 1, .redrawRequested) := by decide +kernel

/-- Log entry 19: on a display that is set under the sprite, the second of two equal DRWs reports VF = 0 though
the sprite has a set bit, as R181 gives and R182's closing clause does not. -/
theorem test_DRW_twice_on_set_pixel :
    ((next? (exec (.drw 1 2 1) (start 0xD121 fun s =>
      { (s.setByte 0x300 0x80).setIndex 0x300 with disp := 1 }))).bind fun t => drawn (exec (.drw 1 2 1) t)) =
      some ([0], 0, .redrawRequested) := by decide +kernel

/-! ### Keypad, timers -/

/-- K-1. -/
theorem test_SKP : went (step (start 0xE19E (fun s => (s.setV 1 5).setKey 5 true) 0x220)) =
    some (0x224, .continued) := by decide +kernel

/-- K-5 by default. -/
theorem test_SKP_range : fault? (step (start 0xE19E fun s => (s.setV 1 0x10).setKey 0 true)) =
    some (.unspecified ⟨0x200, some 0xE19E⟩ .keyIndexRange) := by decide +kernel

/-- K-4. -/
theorem test_SKNP : went (step (start 0xE1A1 (fun s => (s.setV 1 5).setKey 5 true) 0x220)) =
    some (0x222, .continued) := by decide +kernel

/-- K-6 under KEY_INDEX_POLICY = low_nibble. -/
theorem test_SKNP_low_nibble :
    went (step (start 0xE1A1 (fun s => (s.setV 1 0xFF).setKey 15 true) 0x200 lowNibbleKeys)) =
      some (0x202, .continued) := by decide +kernel

/-- K-7: the lowest pressed key. -/
theorem test_LD_K : seen 2 (step (start 0xF20A fun s => ((s.setV 2 0x99).setKey 0 true).setKey 15 true)) =
    some (0x00, 0, 0x202, .continued) := by decide +kernel

/-- K-8: blocked. -/
theorem test_LD_K_blocked : seen 2 (step (start 0xF20A (·.setV 2 0x99) 0x300)) =
    some (0x99, 0, 0x300, .awaitInput) := by decide +kernel

/-- K-9. -/
theorem test_LD_V_DT : seen 0 (step (start 0xF007 (·.setDt 0x3C))) = some (0x3C, 0, 0x202, .continued) := by
  decide +kernel

/-- K-10. -/
theorem test_LD_DT_V : (next? (step (start 0xF015 (·.setV 0 0x3C)))).map (fun t => (t.dt, t.st)) =
    some (0x3C, 0) := by decide +kernel

/-- K-11. -/
theorem test_LD_ST_V : (next? (step (start 0xF218 (·.setV 2 0x05)))).map
    (fun t => (t.dt, t.st, t.soundActive)) = some (0, 0x05, true) := by decide +kernel

/-! ### Host events -/

/-- K-12, K-13, L1.6: both timers, one each, never below 0. -/
theorem test_timer_tick :
    (let t := (perform .timerTick { State.reset with dt := 2, st := 5 }).2; (t.dt, t.st)) = (1, 4) ∧
    (let t := (perform .timerTick { State.reset with dt := 0, st := 1 }).2; (t.dt, t.st, t.soundActive)) =
      (0, 0, false) := by decide +kernel

/-- K-14, its first step: under KEY_MODEL = edge the keys are cleared after it. K-15: under level they stay. -/
theorem test_key_model :
    (let t := (perform .step (start 0xE09E (fun s => (s.setV 0 4).setKey 4 true) 0x200 edgeKeys)).2
     (t.pc, t.keys[4])) = (0x204, false) ∧
    (let t := (perform .step (start 0xE09E fun s => (s.setV 0 4).setKey 4 true)).2
     (t.pc, t.keys[4])) = (0x204, true) := by decide +kernel

/-- R223, R227: a faulting step gives back its fault and leaves PC; under edge the keys are cleared after it too,
under level they stay. -/
theorem test_key_model_fault :
    (let p := perform .step (start 0x00EE (·.setKey 4 true) 0x200 edgeKeys)
     (p.1, p.2.pc, p.2.keys[4])) = (.fault (.stackUnderflow ⟨0x200, some 0x00EE⟩ 0), 0x200, false) ∧
    (let p := perform .step (start 0x00EE (·.setKey 4 true))
     (p.1, p.2.pc, p.2.keys[4])) = (.fault (.stackUnderflow ⟨0x200, some 0x00EE⟩ 0), 0x200, true) := by
  decide +kernel

/-- B-4: three bytes, and the byte after them as constructed. B-1: the font. -/
theorem test_load :
    stored 0x200 4 (State.reset.load [0x60, 0x05, 0x70]) = some ([0x60, 0x05, 0x70, 0x00], 0) ∧
    State.reset.bytes 0x04B 6 = [0xF0, 0x80, 0xF0, 0x80, 0x80, 0x00] := by decide +kernel

/-- A store of the byte an address reads as unlisted lists nothing: equal memories are equal data. -/
theorem test_canonical_memory :
    ((State.reset.setByte 0x300 0x55).setByte 0x300 0x00).mem = State.reset.mem ∧
    (State.reset.setByte 0x001 0x90).mem = State.reset.mem := by decide +kernel

/-- The host's question: one word stored where reset fetches runs as the first instruction. -/
theorem test_withFetchWord :
    seen 10 (step (State.reset.withFetchWord 16 0x6A42)) = some (0x42, 0, 0x202, .continued) := by decide +kernel

/-! ### Witnesses: a concrete state that meets every hypothesis of a statement, for each of its clauses -/

/-- From a computed check of the state after to its existence. -/
theorem exists_next {r : Result} (p : State → Prop) [DecidablePred p] (h : (next? r).any (fun t => decide (p t)) = true) :
    ∃ t, r = .next t ∧ p t := by
  cases r with
  | next t => exact ⟨t, rfl, by simpa [next?] using h⟩
  | fault f => simp [next?] at h
  | refused r => simp [next?] at h

/-- From a computed fault to its equation. -/
theorem fault_eq {r : Result} {f : Fault} (h : fault? r = some f) : r = .fault f := by
  cases r <;> simp_all [fault?]

/-- A word with no leeway, and one whose lowest nibble is not examined. -/
theorem witness_EncodeInvertsDecode :
    decode Config.default 0x8124#16 = .op (.addReg 1 2) ∧ decode Config.default 0x5123#16 = .op (.seReg 1 2) := by
  decide

/-- Each class of R93 at its boundaries, beside legal neighbours. -/
theorem witness_IllegalWordsAreTheListedClasses :
    decode Config.default 0x0FFF#16 = .decodeFault 0x0FFF#16 ∧ decode Config.default 0x00EF#16 = .decodeFault 0x00EF#16 ∧
    decode Config.default 0x8FFD#16 = .decodeFault 0x8FFD#16 ∧ decode Config.default 0x8FFF#16 = .decodeFault 0x8FFF#16 ∧
    decode Config.default 0xEF9F#16 = .decodeFault 0xEF9F#16 ∧ decode Config.default 0xFF66#16 = .decodeFault 0xFF66#16 ∧
    decode strict 0x9FF1#16 = .decodeFault 0x9FF1#16 ∧ decode Config.default 0x9FF1#16 = .op (.sneReg 15 15) ∧
    decode Config.default 0x8FFE#16 = .op (.shl 15 15) := by decide

theorem witness_DecodeFollowsTheOpcodeMap :
    (∃ row ∈ opcodeMap, 0x8124#16 &&& row.1 = row.2.1) ∧
    (Config.default.strict59 = false ∧ 0x5123#16 &&& 0xF000 = 0x5000 ∧ 0x912F#16 &&& 0xF000 = 0x9000) ∧
    (0x0FFF#16 &&& 0xF000 = 0x0000 ∧ 0x0FFF#16 ≠ 0x00E0 ∧ 0x0FFF#16 ≠ 0x00EE) :=
  ⟨⟨opcodeMap[13], List.getElem_mem _, by decide⟩, by decide, by decide⟩

/-- PC just past the last fetch; at the last fetch with a legal word; there with an illegal one. -/
theorem witness_StepRunsTheDecodedInstruction :
    0xFFE < ({ State.reset with pc := 0xFFF } : State).pc.toNat ∧
    (let s := start 0x00E0 id 0xFFE
     s.pc.toNat ≤ 0xFFE ∧ (0x00E0#16).toNat = (s.byte 0xFFE).toNat * 256 + (s.byte 0xFFF).toNat ∧
      decode s.cfg 0x00E0#16 = .op .cls) ∧
    (let s := start 0xFFFF id 0xFFE
     s.pc.toNat ≤ 0xFFE ∧ (0xFFFF#16).toNat = (s.byte 0xFFE).toNat * 256 + (s.byte 0xFFF).toNat ∧
      decode s.cfg 0xFFFF#16 = .decodeFault 0xFFFF#16) := by decide +kernel

/-- A handler that faults and one that completes. -/
theorem witness_HandlersFaultExactlyByTheTable :
    owedFault .ret State.reset = some (.stackUnderflow ⟨0x200, some 0⟩ 0) ∧ owedFault .cls State.reset = none := by
  decide +kernel

theorem witness_FaultsRecordPcAndWord :
    step { State.reset with pc := 0xFFF } = .fault (.outOfBoundsMemoryAccess ⟨0xFFF, none⟩ 0xFFF 2) ∧
    step (start 0xFFFF id 0xFFE) = .fault (.decodeFault ⟨0xFFE, some 0xFFFF⟩ 0xFFFF) :=
  ⟨fault_eq (by decide +kernel), fault_eq (by decide +kernel)⟩

/-- Each of the three outcomes. -/
theorem witness_OutcomesAreClassified :
    (∃ t, exec (.drw 0 0 0) State.reset = .next t ∧ t.outcome = .redrawRequested) ∧
    (∃ t, exec (.ldK 3) State.reset = .next t ∧ t.outcome = .awaitInput) ∧
    (∃ t, exec (.ldK 3) (State.reset.setKey 9 true) = .next t ∧ t.outcome = .continued) :=
  ⟨exists_next _ (by decide +kernel), exists_next _ (by decide +kernel), exists_next _ (by decide +kernel)⟩

/-- A skip taken, a blocked wait, and a plain advance. -/
theorem witness_PcAdvancesByTwoUnlessBranching :
    (∃ t, exec (.seImm 0 0) State.reset = .next t ∧ t.pc = 0x204) ∧
    (∃ t, exec (.ldK 0) State.reset = .next t ∧ t.pc = 0x200) ∧
    (∃ t, exec .cls State.reset = .next t ∧ t.pc = 0x202) :=
  ⟨exists_next _ (by decide +kernel), exists_next _ (by decide +kernel), exists_next _ (by decide +kernel)⟩

theorem witness_OnlyRndUsesTheRandomCapability :
    (∀ x kk, Instr.addReg 1 2 ≠ .rnd x kk) ∧ ∃ t, exec (.addReg 1 2) State.reset = .next t ∧ t.pc = 0x202 :=
  ⟨by simp, exists_next _ (by decide +kernel)⟩

/-- At the last address a self-jump can stand at. -/
theorem witness_SelfJumpLoopsForever :
    let s := start 0x1FFE id 0xFFE
    s.pc.toNat = (0xFFE#12).toNat ∧ (0xFFE#12).toNat ≤ 0xFFE ∧
      (s.byte s.pc.toNat).toNat * 256 + (s.byte (s.pc.toNat + 1)).toNat = 0x1000 + (0xFFE#12).toNat := by
  decide +kernel

theorem witness_OnlyListedInstructionsWriteGeneralRegisters :
    ∃ t, exec (.subn 1 2) State.reset = .next t ∧ t.getV 15 ≠ State.reset.getV 15 :=
  exists_next _ (by decide +kernel)

theorem witness_OnlyCallAndRetTouchTheStack :
    ∃ t, exec (.call 0x300#12) State.reset = .next t ∧ t.stack[0] ≠ State.reset.stack[0] ∧ t.sp ≠ State.reset.sp :=
  exists_next _ (by decide +kernel)

/-- Each of the four writers at work. -/
theorem witness_KeysDisplayTimersIndexHaveTheirWriters :
    let s := (State.reset.setV 0 5).setByte 0x300 0x80
    (∃ t, exec (.drw 0 0 1) (s.setIndex 0x300) = .next t ∧ t.disp ≠ s.disp) ∧
    (∃ t, exec (.ldDtV 0) s = .next t ∧ t.dt ≠ s.dt) ∧ (∃ t, exec (.ldStV 0) s = .next t ∧ t.st ≠ s.st) ∧
    (∃ t, exec (.addI 0) s = .next t ∧ t.index ≠ s.index) :=
  ⟨exists_next _ (by decide +kernel), exists_next _ (by decide +kernel), exists_next _ (by decide +kernel),
    exists_next _ (by decide +kernel)⟩

/-- The lowest and the highest byte a store can change by default. -/
theorem witness_OnlyTheTwoStoresChangeMemory :
    (Memory.wf State.reset.cfg.fontTable State.reset.mem = true) ∧
    (∃ t, exec (.ldMemV 0) ((State.reset.setV 0 9).setIndex 0x050) = .next t ∧ t.byte 0x050 ≠ State.reset.byte 0x050) ∧
    (∃ t, exec (.ldB 0) ((State.reset.setV 0 9).setIndex 0xFFD) = .next t ∧ t.byte 0xFFF ≠ State.reset.byte 0xFFF) :=
  ⟨by decide, exists_next _ (by decide +kernel), exists_next _ (by decide +kernel)⟩

theorem witness_ConfigurationIsFixed :
    (perform .step (start 0x00E0)).2.pc = 0x202 ∧ (∃ t, State.reset.load [0x60] = .next t ∧ t.byte 0x200 = 0x60) :=
  ⟨by decide +kernel, exists_next _ (by decide +kernel)⟩

theorem witness_WrittenRegistersAreMarked :
    ∃ t, exec (.ldF 0) State.reset = .next t ∧ t.written.has .index = true :=
  exists_next _ (by decide +kernel)

/-- The last of the registers V0..V3 that the store reads has no value. -/
theorem witness_UnwrittenReadsFault :
    let s := (((State.construct faultUnwritten).setV 0 1).setV 1 1).setV 2 1 |>.setIndex 0x300
    s.cfg.initRegPolicy = .faultOnUnwritten ∧ ∃ r ∈ Instr.reads s.cfg (.ldMemV 3), s.written.has r = false := by
  decide +kernel

/-- P6 for the bulk store, over both bytes of the next word; LD B with I = PC + 1, whose tens and ones fall on
it; a bulk store over its first byte alone, and one over its second alone; and the last next fetch in memory. -/
theorem witness_StoresReachTheNextFetch :
    let s := fun i : Word => { (State.reset.setV 0 0x7B).setIndex i with pc := 0x206 }
    Memory.wf (s 0x208).cfg.fontTable (s 0x208).mem = true ∧ (s 0x208).pc.toNat + 4 ≤ 0x1000 ∧
      (∃ t, exec (.ldMemV 1) (s 0x208) = .next t ∧ t.fetch? = some 0x7B00) ∧
      (∃ t, exec (.ldB 0) (s 0x207) = .next t ∧ t.fetch? = some 0x0203) ∧
      (∃ t, exec (.ldMemV 0) (s 0x208) = .next t ∧ t.fetch? = some 0x7B00) ∧
      (∃ t, exec (.ldMemV 0) (s 0x209) = .next t ∧ t.fetch? = some 0x007B) ∧
      ({ State.reset with pc := 0xFFC } : State).pc.toNat + 4 ≤ 0x1000 :=
  ⟨by decide +kernel, by decide +kernel, exists_next _ (by decide +kernel), exists_next _ (by decide +kernel),
    exists_next _ (by decide +kernel), exists_next _ (by decide +kernel), by decide⟩

theorem witness_SysIsANoOpWhenIgnored :
    (State.construct ignoreSys).cfg.sysPolicy = .ignore ∧ State.reset.cfg.sysPolicy = .decodeFault := by decide

/-- SP at 1 and 15 for the return, at 0 for the fault. -/
theorem witness_RetPopsTheReturnAddress :
    ({ State.reset with sp := 1 } : State).sp ≠ 0 ∧ ({ State.reset with sp := 15 } : State).sp ≠ 0 ∧
    State.reset.sp = 0 := by decide

/-- SP at 0 and 14 for the call, at 15 for the fault. -/
theorem witness_CallPushesTheReturnAddress :
    State.reset.sp ≠ 15 ∧ ({ State.reset with sp := 14 } : State).sp ≠ 15 ∧
    ({ State.reset with sp := 15 } : State).sp = 15 := by decide

theorem witness_CallThenRetReturns :
    State.reset.sp.val ≤ 14 ∧ ({ State.reset with sp := 14 } : State).sp.val ≤ 14 := by decide

/-- A call at the deepest SP that takes one, and a timer tick in the callee. -/
theorem witness_ReturnMatchesTheMostRecentCall :
    let s := { State.reset with sp := 14 }
    ∃ t u, exec (.call 0x300#12) s = .next t ∧ RunsAbove s.sp t u ∧ u.sp.val = s.sp.val + 1 :=
  ⟨_, _, rfl, .event _ _ .timerTick (.start _ (by decide)) (by decide), rfl⟩

/-- A CALL from SP = 14: the deepest live entry before it is slot 13. -/
theorem witness_LiveStackEntriesAreKept :
    let s := start 0x2300 fun s => { s with sp := 14 }
    (perform .step s).2.sp = 15 ∧ (13 : Fin 16) < s.sp := by decide +kernel

/-- `mayRead` holds by default of any registers, and under fault_on_unwritten of the written ones. -/
theorem witness_mayRead :
    State.reset.mayRead [.v 1, .v 2, .index, .dt] ∧
    (State.construct faultUnwritten |>.setV 1 0 |>.setV 2 0 |>.setIndex 0 |>.setDt 0).mayRead
      [.v 1, .v 2, .index, .dt] :=
  ⟨Or.inl rfl, Or.inr (by decide)⟩

/-- V0 by default, V[nnn[11:8]] under JUMP_OFFSET_REG = vx. -/
theorem witness_JpV0AddsTheOffsetRegister :
    (0 : RegIdx).val = (if State.reset.cfg.jumpOffsetReg = .v0 then 0 else (0xFFF#12).toNat / 256) ∧
    (let s := State.construct { Config.default with jumpOffsetReg := .vx }
     (15 : RegIdx).val = (if s.cfg.jumpOffsetReg = .v0 then 0 else (0xFFF#12).toNat / 256) ∧ s.mayRead [.v 15]) :=
  ⟨rfl, rfl, Or.inl rfl⟩

/-- The last three bytes of memory, the first three above the font, the font where stores there are allowed;
one byte too far, and the last byte of the font. -/
theorem witness_BcdStoresTheDigits :
    Memory.wf State.reset.cfg.fontTable State.reset.mem = true ∧ State.reset.mayRead [.v 0, .index] ∧
    ((State.reset.setIndex 0xFFD).index.toNat + 3 ≤ 0x1000 ∧ 0x050 ≤ (State.reset.setIndex 0x050).index.toNat) ∧
    (State.construct allowFont).cfg.fontWritePolicy = .allow ∧
    0x1000 < (State.reset.setIndex 0xFFE).index.toNat + 3 ∧
    (State.reset.cfg.fontWritePolicy = .fault ∧ (State.reset.setIndex 0x04F).index.toNat < 0x050) :=
  ⟨by decide, Or.inl rfl, by decide, rfl, by decide, by decide⟩

/-- All sixteen registers to the last sixteen bytes of memory, one byte too far, and the last font byte. -/
theorem witness_BulkStoreWritesTheRegisters :
    (let s := State.reset.setIndex 0xFF0
     Memory.wf s.cfg.fontTable s.mem = true ∧
      s.mayRead (.index :: (List.range ((15 : RegIdx).val + 1)).map fun k => .v (Fin.ofNat 16 k)) ∧
      s.index.toNat + (15 : RegIdx).val + 1 ≤ 0x1000 ∧ (s.cfg.fontWritePolicy = .allow ∨ 0x050 ≤ s.index.toNat)) ∧
    0x1000 < (State.reset.setIndex 0xFF1).index.toNat + (15 : RegIdx).val + 1 ∧
    (State.reset.cfg.fontWritePolicy = .fault ∧ (State.reset.setIndex 0x04F).index.toNat < 0x050) :=
  ⟨⟨by decide, Or.inl rfl, by decide, by decide⟩, by decide, by decide⟩

/-- All sixteen registers from the last sixteen bytes of memory, and one byte too far. -/
theorem witness_BulkLoadReadsTheRegisters :
    (let s := State.reset.setIndex 0xFF0
     s.mayRead [.index] ∧ s.index.toNat + (15 : RegIdx).val + 1 ≤ 0x1000) ∧
    0x1000 < (State.reset.setIndex 0xFF1).index.toNat + (15 : RegIdx).val + 1 :=
  ⟨⟨Or.inl rfl, by decide⟩, by decide⟩

/-- Both sources. -/
theorem witness_ShiftsMoveOneBit :
    (1 : RegIdx) = (if State.reset.cfg.shiftSource = .vx then 1 else 2) ∧
    (let s := State.construct { Config.default with shiftSource := .vy }
     (2 : RegIdx) = (if s.cfg.shiftSource = .vx then 1 else 2) ∧ s.mayRead [.v 2]) :=
  ⟨rfl, rfl, Or.inl rfl⟩

/-- No rows at all with I outside memory, one row at the last byte, and two rows there. -/
theorem witness_DrwXorsTheSprite :
    (State.reset.setIndex 0xFFFF).mayRead [.v 1, .v 2] ∧ (State.reset.setIndex 0xFFFF).mayRead [.index] ∧
    ((0 : Fin 16) = 0 ∨ (State.reset.setIndex 0xFFFF).index.toNat + (0 : Fin 16).val ≤ 0x1000) ∧
    ((1 : Fin 16) = 0 ∨ (State.reset.setIndex 0xFFF).index.toNat + (1 : Fin 16).val ≤ 0x1000) ∧
    ((2 : Fin 16) ≠ 0 ∧ 0x1000 < (State.reset.setIndex 0xFFF).index.toNat + (2 : Fin 16).val) :=
  ⟨Or.inl rfl, Or.inl rfl, by decide, by decide, by decide⟩

/-- The glyph of digit 0 drawn twice on a clear display. -/
theorem witness_DrawingTwiceRestores :
    ∃ t u, exec (.drw 1 2 5) State.reset = .next t ∧ t.getV 1 = State.reset.getV 1 ∧ t.getV 2 = State.reset.getV 2 ∧
      exec (.drw 1 2 5) t = .next u ∧ State.reset.disp = 0 := by
  obtain ⟨t, ht, h1, h2, h3⟩ := exists_next (r := exec (.drw 1 2 5) State.reset)
    (fun t => t.getV 1 = State.reset.getV 1 ∧ t.getV 2 = State.reset.getV 2 ∧
      (next? (exec (.drw 1 2 5) t)).any (fun _ => decide True) = true) (by decide +kernel)
  obtain ⟨u, hu, -⟩ := exists_next (fun _ => True) h3
  exact ⟨t, u, ht, h1, h2, hu, rfl⟩

/-- Vx at 0xF; above it under each policy. -/
theorem witness_KeySkipsTestTheKey :
    (let s := State.reset.setV 1 0x0F
     s.mayRead [.v 1] ∧ (15 : Fin 16).val = (s.getV 1).toNat % 16 ∧ (s.getV 1).toNat ≤ 0xF) ∧
    (let s := (State.construct lowNibbleKeys).setV 1 0x10
     (0 : Fin 16).val = (s.getV 1).toNat % 16 ∧ s.cfg.keyIndexPolicy = .lowNibble) ∧
    (let s := State.reset.setV 1 0x10
     0xF < (s.getV 1).toNat ∧ s.cfg.keyIndexPolicy = .fault) :=
  ⟨⟨Or.inl rfl, by decide, by decide⟩, by decide, by decide⟩

/-- Two keys pressed, and none. -/
theorem witness_WaitForKeyTakesTheLowestOrBlocks :
    (let s := (State.reset.setKey 9 true).setKey 3 true
     s.keys[(3 : Fin 16)] = true ∧ ∀ j : Fin 16, j < 3 → s.keys[j] = false) ∧
    (∀ k : Fin 16, State.reset.keys[k] = false) := by decide

theorem witness_BlockedWaitIsRetried :
    let s := start 0xF30A
    s.fetch? = some 0xF30A ∧ decode s.cfg 0xF30A = .op (.ldK 3) ∧ ∀ j : Fin 16, s.keys[j] = false := by
  decide +kernel

theorem witness_SetKeyChangesOneKey :
    ∃ t, step (start 0xF20A (·.setKey 7 true)) = .next t ∧ t.keys[7] = true := exists_next _ (by decide +kernel)

/-- 5xyn with n at 0 and above under STRICT_5_9, and 9xyn without it. -/
theorem witness_RegisterSkipsCompare :
    State.reset.mayRead [.v 1, .v 2] ∧ (0x5120#16).toNat / 0x1000 = 5 ∧ decode strict 0x5120#16 = .op (.seReg 1 2) ∧
    decode strict 0x5121#16 = .decodeFault 0x5121#16 ∧ (0x912F#16).toNat / 0x1000 = 9 ∧
    decode Config.default 0x912F#16 = .op (.sneReg 1 2) :=
  ⟨Or.inl rfl, by decide, by decide, by decide, by decide, by decide⟩

/-- 5xy0 and 5xy3 under the default, and a SYS no word spells. -/
theorem witness_DecodeInvertsEncode :
    (Config.default.strict59 = false ∧ 0x5120#16 &&& 0xF00F = 0x5000 ∧ 0x5120#16 ||| 0x0003 = 0x5123#16) ∧
    (∀ nnn, Instr.drw 1 2 5 ≠ .sys nnn) ∧ wellFormed ignoreSys (.sys 0x0EE#12) = false :=
  ⟨by decide, by simp, by decide⟩

/-- A step that completes and one that faults, with a key pressed, under each key model. -/
theorem witness_KeyModelActsAfterTheStep :
    (let s := fun (w : Word) (cfg : Config) => start w (·.setKey 4 true) 0x200 cfg
     (s 0x00E0 edgeKeys).cfg.keyModel = .edge ∧ (s 0x00E0 Config.default).cfg.keyModel = .level ∧
      (∃ t, step (s 0x00E0 edgeKeys) = .next t ∧ t.pc = 0x202) ∧
      (∃ t, step (s 0x00E0 Config.default) = .next t ∧ t.pc = 0x202) ∧
      step (s 0x00EE edgeKeys) = .fault (.stackUnderflow ⟨0x200, some 0x00EE⟩ 0) ∧
      step (s 0x00EE Config.default) = .fault (.stackUnderflow ⟨0x200, some 0x00EE⟩ 0)) :=
  ⟨by decide +kernel, by decide +kernel, exists_next _ (by decide +kernel), exists_next _ (by decide +kernel),
    fault_eq (by decide +kernel), fault_eq (by decide +kernel)⟩

theorem witness_FaultsRepeat :
    step (start 0x00EE) = .fault (.stackUnderflow ⟨0x200, some 0x00EE⟩ 0) := fault_eq (by decide +kernel)

/-- B-2, B-3: the longest image, and one byte more. -/
theorem witness_LoadCopiesTheImage :
    Memory.wf State.reset.cfg.fontTable State.reset.mem = true ∧ (List.replicate 3584 (0xA5 : Byte)).length ≤ 3584 ∧
    3584 < (List.replicate 3585 (0xA5 : Byte)).length :=
  ⟨by decide, by rw [List.length_replicate], by rw [List.length_replicate]; decide⟩

/-- The invariant holds at the deepest call from the last fetch, and that step completes. -/
theorem witness_StepKeepsTheInvariant :
    let s := start 0x2300 (fun s => { s with sp := 14 }) 0xFFE
    Inv s ∧ ∃ t, step s = .next t ∧ t.stack[14] = 0x1000 :=
  ⟨⟨by decide +kernel, by decide +kernel, by decide +kernel, by decide +kernel, fun _ => by decide +kernel⟩,
    exists_next _ (by decide +kernel)⟩

theorem witness_BootMeetsTheInvariant :
    Inv State.reset ∧ ∃ t, State.reset.load [0x12, 0x00] = .next t ∧ t.byte 0x200 = 0x12 :=
  ⟨⟨by decide +kernel, by decide +kernel, by decide +kernel, by decide +kernel, fun _ => by decide +kernel⟩,
    exists_next _ (by decide +kernel)⟩

/-- A loaded machine after a key change and a timer tick, under the default policy of font stores; and one whose
step, an illegal word, faulted. -/
theorem witness_Reachable :
    Config.default.fontWritePolicy = .fault ∧ (∃ s, Reachable Config.default [0x12, 0x00] s ∧ s.keys[3] = true) ∧
    ∃ s, Reachable edgeKeys [0xFF, 0xFF] s ∧ s.pc = 0x200 ∧ s.keys[3] = false :=
  ⟨rfl, ⟨_, .event _ .timerTick (.event _ (.setKey 3 true) (.boot _ rfl)), by decide⟩,
    _, .event _ .step (.event _ (.setKey 3 true) (.boot _ rfl)), by decide +kernel⟩

end Sys2Proof.Tests
end

section
/-! One frame for all of `exec`: which components a completed instruction may change (10_state.md R24, R26,
R29, R31, R34). Whole-machine rules of the form "no instruction but these changes that" read it off. -/

namespace Sys2Proof.Machine

/-- The components an instruction may change when it completes: PC, and what its rule writes. Of a store it
says memory only, with no address, so that it needs no canonical form. -/
def Instr.changes (i : Instr) (s : State) (c : Component) : Prop :=
  c = .pc ∨ match i with
  | .sys _ | .jp _ | .jpV0 _ | .seImm _ _ | .sneImm _ _ | .seReg _ _ | .sneReg _ _ | .skp _ | .sknp _ => False
  | .cls => ∃ p, c = .pixel p
  | .ret => c = .sp
  | .call _ => c = .sp ∨ c = .stack s.sp
  | .ldImm x _ | .addImm x _ | .ldReg x _ | .ldVDt x | .ldK x => c = .v x
  | .rnd x _ => c = .v x ∨ c = .draws
  | .or x _ | .and x _ | .xor x _ => c = .v x ∨ (c = .v 15 ∧ s.cfg.logicVfReset = true)
  | .addReg x _ | .sub x _ | .subn x _ | .shr x _ | .shl x _ => c = .v x ∨ c = .v 15
  | .drw _ _ _ => c = .v 15 ∨ ∃ p, c = .pixel p
  | .ldDtV _ => c = .dt
  | .ldStV _ => c = .st
  | .ldI _ | .addI _ | .ldF _ => c = .index
  | .ldB _ => ∃ a, c = .mem a
  | .ldMemV _ => (∃ a, c = .mem a) ∨ (c = .index ∧ s.cfg.loadStoreIncrement ≠ .none)
  | .ldVMem x => (∃ y ≤ x, c = .v y) ∨ (c = .index ∧ s.cfg.loadStoreIncrement ≠ .none)

/-! ### Frames of single updates -/

/-- Ending the step adds PC to what an update changes. -/
theorem Unchanged.ended {ch : Component → Prop} {s u t : State} (h : Unchanged ch s u) {w : Word} {o : StepOutcome}
    (e : t = u.ended w o) : Unchanged (fun c => c = .pc ∨ ch c) s t := by
  have hu : Unchanged (fun c => c = .pc ∨ ch c) s u := h.mono fun _ => Or.inr
  exact e ▸ hu.end (Or.inl rfl) w o

/-- Two updates in a row change what either changes. -/
theorem Unchanged.or {ch ch' : Component → Prop} {s t u : State} (h : Unchanged ch s t) (h' : Unchanged ch' t u) :
    Unchanged (fun c => ch c ∨ ch' c) s u :=
  (h.mono fun _ => Or.inl).trans (h'.mono fun _ => Or.inr)

theorem State.withDisp_frame (s : State) (d : BitVec 2048) :
    Unchanged (fun c => ∃ p, c = .pixel p) s { s with disp := d } := by
  intro c hc
  cases c <;> simp_all [Component.same, State.byte, State.getV]

theorem State.withDraws_frame (s : State) (n : Nat) : Unchanged (· = .draws) s { s with draws := n } := by
  intro c hc
  cases c <;> simp_all [Component.same, State.byte, State.getV]

theorem State.withSp_frame (s : State) (p : Fin 16) : Unchanged (· = .sp) s { s with sp := p } := by
  intro c hc
  cases c <;> simp_all [Component.same, State.byte, State.getV]

theorem State.withSlot_frame (s : State) (p : Fin 16) (w : Word) :
    Unchanged (· = .stack p) s { s with stack := s.stack.set p w } := by
  intro c hc
  cases c with
  | stack j =>
    have hne : p.val ≠ j.val := fun e => hc (by rw [Fin.ext e])
    simp [Component.same, hne]
  | _ => simp [Component.same, State.byte, State.getV]

/-- A store changes memory alone, in canonical form or not. -/
theorem State.setBytes_only_mem (s : State) (a : Nat) (bs : List Byte) :
    Unchanged (fun c => ∃ b, c = .mem b) s (s.setBytes a bs) := by
  intro c hc
  cases c <;> simp_all [Component.same, State.getV]

/-- Loading the bytes at an address into V0 on changes V0..Vx alone. -/
theorem State.setRegisters_upTo (s : State) (a : Nat) (x : RegIdx) :
    Unchanged (fun c => ∃ y ≤ x, c = .v y) s (s.setRegisters 0 (s.bytes a (x.val + 1))) := by
  refine (s.setRegisters_frame 0 _).mono ?_
  rintro c ⟨j, -, hj, rfl⟩
  rw [State.bytes_length] at hj
  refine ⟨Fin.ofNat 16 j, Fin.le_def.2 ?_, rfl⟩
  have : (Fin.ofNat 16 j).val ≤ j := Nat.mod_le j 16
  omega

/-! ### The frame of `exec` -/

/-- A completed instruction changes the components of `Instr.changes` and no other. -/
theorem exec_unchanged {i : Instr} {s t : State} (h : exec i s = .next t) : Unchanged (Instr.changes i s) s t := by
  have h := (exec_next_iff i s t).1 h
  cases i with
  | jp _ => exact (Unchanged.refl _ s).ended h
  | sys _ | jpV0 _ | seImm _ _ | sneImm _ _ | seReg _ _ | sneReg _ _ => exact (Unchanged.refl _ s).ended h.2
  | skp _ | sknp _ =>
    obtain ⟨-, k, -, h⟩ := h
    exact (Unchanged.refl _ s).ended h
  | cls => exact (s.withDisp_frame 0).ended h
  | ret => exact (s.withSp_frame _).ended h.2
  | call _ =>
    refine Unchanged.ended (Unchanged.or (s.withSp_frame (s.sp + 1)) ?_) h.2
    exact State.withSlot_frame { s with sp := s.sp + 1 } s.sp _
  | ldImm x kk => exact (s.setV_frame x kk).ended h
  | addImm x _ | ldReg x _ | ldVDt x => exact (s.setV_frame x _).ended h.2
  | ldK x =>
    obtain ⟨k, -, h⟩ | ⟨-, h⟩ := h
    · exact (s.setV_frame x _).ended h
    · exact (Unchanged.refl _ s).ended h
  | rnd x _ => exact ((s.setV_frame x _).or (State.withDraws_frame _ _)).ended h
  | or x _ | and x _ | xor x _ => exact (s.setLogic_unchanged x _).ended h.2
  | addReg x _ | sub x _ | subn x _ | shr x _ | shl x _ => exact (s.setWithFlag_unchanged x _ _).ended h.2
  | drw _ _ _ =>
    obtain ⟨-, -, h⟩ := h
    exact (((s.withDisp_frame _).or (State.setV_frame _ 15 _)).mono fun _ => Or.symm).ended h
  | ldDtV _ => exact (s.setDt_frame _).ended h.2
  | ldStV _ => exact (s.setSt_frame _).ended h.2
  | ldI _ => exact (s.setIndex_frame _).ended h
  | addI _ | ldF _ => exact (s.setIndex_frame _).ended h.2
  | ldB _ =>
    obtain ⟨-, -, -, h⟩ := h
    exact (s.setBytes_only_mem _ _).ended h
  | ldMemV x =>
    obtain ⟨-, -, -, h⟩ := h
    have hidx := (s.setBytes s.index.toNat (s.registers (x.val + 1))).stepIndex_frame x
    rw [State.setBytes_cfg] at hidx
    exact ((s.setBytes_only_mem _ _).or hidx).ended h
  | ldVMem x =>
    obtain ⟨-, -, h⟩ := h
    have hidx := (s.setRegisters 0 (s.bytes s.index.toNat (x.val + 1))).stepIndex_frame x
    rw [State.setRegisters_cfg] at hidx
    exact ((s.setRegisters_upTo _ x).or hidx).ended h

/-- The stack slots an instruction may change: CALL the slot SP. -/
theorem Instr.changes_stack {i : Instr} {s : State} {j : Fin 16} :
    Instr.changes i s (.stack j) ↔ (∃ nnn, i = .call nnn) ∧ j = s.sp := by
  cases i <;> simp [Instr.changes]

end Sys2Proof.Machine

open Sys2Proof Sys2Proof.Machine

/-- Settles O13: a register that differs is one `Instr.changes` names, and its table is R24's. -/
theorem onlyListedInstructionsWriteGeneralRegisters : Obligations.OnlyListedInstructionsWriteGeneralRegisters := by
  intro i s t z h hz
  have hch : Instr.changes i s (.v z) := by
    by_contra hc
    exact hz (exec_unchanged h (.v z) hc).1
  cases i with
  | ldImm _ _ | addImm _ _ | ldReg _ _ | rnd _ _ | ldVDt _ | ldK _ | or _ _ | and _ _ | xor _ _ | addReg _ _ | sub _ _
  | subn _ _ | shr _ _ | shl _ _ | drw _ _ _ | ldVMem _ => simpa [Instr.changes] using hch
  | _ => simp [Instr.changes] at hch

end

section
/-! The return address of a CALL stays in its slot while SP is above it, and RET takes it (10_state.md R30;
41_control_flow.md R121, R123). -/

namespace Sys2Proof.Machine

/-- RET at SP = p + 1 completes, with the address in slot p. -/
theorem exec_ret_of_sp {s : State} {p : Fin 16} (hp : s.sp.val = p.val + 1) :
    exec .ret s = .next ({ s with sp := p }.ended s.stack[p]) := by
  have hpred : s.sp - 1 = p := by
    have hs : s.sp = p + 1 := Fin.ext (by rw [hp, Fin.val_add_one_of_lt' (by omega)])
    rw [hs, add_sub_cancel_right]
  have hne : s.sp ≠ 0 := fun e => by simp [e] at hp
  exact (exec_next_iff .ret s _).2 ⟨hne, by simp only [hpred]⟩

/-- A CALL leaves its return address in the slot that SP named. -/
theorem exec_call_slot {nnn : Addr12} {s t : State} (h : exec (.call nnn) s = .next t) :
    t.stack[s.sp] = s.pc + 2 := by
  obtain ⟨-, rfl⟩ := (exec_next_iff (.call nnn) s t).1 h
  simp

/-- No request of the host overwrites a live stack entry, one below SP: the one writer, CALL, writes at SP. -/
theorem perform_live_slot (e : HostEvent) {s : State} {p : Fin 16} (hp : p < s.sp) :
    (perform e s).2.stack[p] = s.stack[p] := by
  refine perform_state (P := fun t => t.stack[p] = s.stack[p]) e rfl (fun t h => ?_) (fun t h => ?_) rfl
    (fun _ _ => rfl)
  · rwa [State.afterStep_stack]
  · obtain ⟨w, i, -, -, -, hexec⟩ := step_next h
    refine exec_unchanged hexec (.stack p) fun hc => ?_
    exact hp.ne (Instr.changes_stack.1 hc).2

theorem RunsAbove.lt_sp {p : Fin 16} {s t : State} (h : RunsAbove p s t) : p < t.sp := by
  cases h with
  | start h => exact h
  | event _ _ _ hp => exact hp

/-- A run above `p` keeps the slot `p`. -/
theorem RunsAbove.slot_eq {p : Fin 16} {s t : State} (h : RunsAbove p s t) : t.stack[p] = s.stack[p] := by
  induction h with
  | start _ => rfl
  | event t e hs _ ih => exact (perform_live_slot e hs.lt_sp).trans ih

end Sys2Proof.Machine

open Sys2Proof Sys2Proof.Machine

/-- Settles O26: CALL leaves its return address in the slot SP, the run above keeps that slot, and RET jumps
to it. -/
theorem returnMatchesTheMostRecentCall : Obligations.ReturnMatchesTheMostRecentCall := by
  intro nnn s t u hcall hrun hsp
  have hslot : u.stack[s.sp] = s.pc + 2 := hrun.slot_eq.trans (exec_call_slot hcall)
  exact ⟨_, exec_ret_of_sp hsp, hslot, rfl⟩

end

section
/-! The encoder against the decoder and against the opcode map (30_encoding.md R95): per format of R83 what the
decoder and a row's fields read from an encoded word, and per instruction the row that its word is. -/

namespace Sys2Proof

/-! ### Decoding an encoded instruction -/

@[simp] theorem encodeNNN_inj {a : BitVec 4} {m n : Addr12} : encodeNNN a m = encodeNNN a n ↔ m = n :=
  ⟨fun h => by simpa using congrArg fieldNNN h, fun h => h ▸ rfl⟩

/-- The words 00E0 and 00EE take their place in the SYS space; the policy says what the rest is (R88). -/
theorem decode_encode_sys (cfg : Config) (nnn : Addr12) :
    decode cfg (encode (.sys nnn)) =
      if nnn = 0x0E0#12 then .op .cls
      else if nnn = 0x0EE#12 then .op .ret
      else if cfg.sysPolicy = .ignore then .op (.sys nnn)
      else .decodeFault (encode (.sys nnn)) := by
  have hcls : (0x00E0#16 : Word) = encodeNNN 0x0#4 0x0E0#12 := rfl
  have hret : (0x00EE#16 : Word) = encodeNNN 0x0#4 0x0EE#12 := rfl
  simp [decode, encode, decodeFamily0, hcls, hret]

theorem decode_encode_sys_iff (cfg : Config) (nnn : Addr12) :
    decode cfg (encode (.sys nnn)) = .op (.sys nnn) ↔ wellFormed cfg (.sys nnn) = true := by
  rw [decode_encode_sys]
  split_ifs <;> simp_all [wellFormed]

/-- Every opcode but SYS decodes from its word under every configuration (R95). -/
theorem decode_encode (cfg : Config) {i : Instr} (h : ∀ nnn, i ≠ .sys nnn) : decode cfg (encode i) = .op i := by
  cases i with
  | sys nnn => exact absurd rfl (h nnn)
  | cls | ret => rfl
  | jp _ | call _ | ldI _ | jpV0 _ | seImm _ _ | sneImm _ _ | ldImm _ _ | addImm _ _ | rnd _ _ | drw _ _ _ =>
    simp [decode, encode]
  | seReg _ _ | sneReg _ _ => simp [decode, encode, decodeFamily59]
  | ldReg _ _ | or _ _ | and _ _ | xor _ _ | addReg _ _ | sub _ _ | shr _ _ | subn _ _ | shl _ _ =>
    simp [decode, encode, decodeFamily8]
  | skp _ | sknp _ => simp [decode, encode, decodeFamilyE]
  | ldVDt _ | ldK _ | ldDtV _ | ldStV _ | addI _ | ldF _ | ldB _ | ldMemV _ | ldVMem _ =>
    simp [decode, encode, decodeFamilyF]

theorem wellFormed_of_ne_sys (cfg : Config) {i : Instr} (h : ∀ nnn, i ≠ .sys nnn) : wellFormed cfg i = true := by
  cases i with
  | sys nnn => exact absurd rfl (h nnn)
  | _ => rfl

theorem decode_encode_iff (cfg : Config) (i : Instr) :
    decode cfg (encode i) = .op i ↔ wellFormed cfg i = true := by
  by_cases h : ∃ nnn, i = .sys nnn
  · obtain ⟨nnn, rfl⟩ := h
    exact decode_encode_sys_iff cfg nnn
  · have h' : ∀ nnn, i ≠ .sys nnn := not_exists.1 h
    exact iff_of_true (decode_encode cfg h') (wellFormed_of_ne_sys cfg h')

/-- SYS nnn is the word 0nnn. -/
theorem toNat_encode_sys (nnn : Addr12) : (encode (.sys nnn)).toNat = nnn.toNat := by
  have hlt : nnn.toNat < 65536 := by omega
  simp [encode, encodeNNN, Nat.mod_eq_of_lt hlt]

/-! ### The row an encoded instruction is -/

theorem fieldX_eq_ofNat (w : Word) : fieldX w = Fin.ofNat 16 (w.toNat / 0x100) := by
  simp [fieldX, BitVec.extractLsb', Nat.shiftRight_eq_div_pow]

theorem fieldY_eq_ofNat (w : Word) : fieldY w = Fin.ofNat 16 (w.toNat / 0x10) := by
  simp [fieldY, BitVec.extractLsb', Nat.shiftRight_eq_div_pow]

theorem toFin_fieldN_eq_ofNat (w : Word) : (fieldN w).toFin = Fin.ofNat 16 w.toNat := by
  simp [fieldN, BitVec.extractLsb']

/-- A row of the opcode map: mask, match, and the instruction read from the fields. -/
abbrev OpcodeRow := Word × Word × (RegIdx → RegIdx → Fin 16 → Byte → Addr12 → Instr)

/-- A row of the opcode map reads the decoder's own fields. -/
theorem rowInstr_eq_fields (row : OpcodeRow) (w : Word) :
    rowInstr row w = row.2.2 (fieldX w) (fieldY w) (fieldN w).toFin (fieldKK w) (fieldNNN w) := by
  rw [fieldX_eq_ofNat, fieldY_eq_ofNat, toFin_fieldN_eq_ofNat]
  rfl

/-- The word is that of some row of the opcode map, whose instruction with the word's fields is `i`. -/
def IsRowOf (w : Word) (i : Instr) : Prop := ∃ row ∈ opcodeMap, w &&& row.1 = row.2.1 ∧ rowInstr row w = i

theorem isRowOf_encodeNNN {a : BitVec 4} {nnn : Addr12} {f : Addr12 → Instr}
    (hrow : ((0xF000, a.setWidth 16 <<< 12, fun _ _ _ _ nnn => f nnn) : OpcodeRow) ∈ opcodeMap) :
    IsRowOf (encodeNNN a nnn) (f nnn) :=
  ⟨_, hrow, Laws.encodeNNN_mask a nnn, by simp [rowInstr_eq_fields]⟩

theorem isRowOf_encodeXKK {a : BitVec 4} {x : RegIdx} {kk : Byte} {f : RegIdx → Byte → Instr}
    (hrow : ((0xF000, a.setWidth 16 <<< 12, fun x _ _ kk _ => f x kk) : OpcodeRow) ∈ opcodeMap) :
    IsRowOf (encodeXKK a x kk) (f x kk) :=
  ⟨_, hrow, Laws.encodeXKK_mask a x kk, by simp [rowInstr_eq_fields]⟩

/-- Format XF: the trailing byte selects the opcode. -/
theorem isRowOf_encodeXF {a : BitVec 4} {x : RegIdx} {sel : Byte} {f : RegIdx → Instr}
    (hrow : ((0xF0FF, a.setWidth 16 <<< 12 ||| sel.setWidth 16, fun x _ _ _ _ => f x) : OpcodeRow) ∈ opcodeMap) :
    IsRowOf (encodeXKK a x sel) (f x) :=
  ⟨_, hrow, Laws.encodeXF_mask a x sel, by simp [rowInstr_eq_fields]⟩

/-- Format XYN where the lowest nibble selects the opcode. -/
theorem isRowOf_encodeXY {a : BitVec 4} {x y : RegIdx} {sel : BitVec 4} {f : RegIdx → RegIdx → Instr}
    (hrow : ((0xF00F, a.setWidth 16 <<< 12 ||| sel.setWidth 16, fun x y _ _ _ => f x y) : OpcodeRow) ∈ opcodeMap) :
    IsRowOf (encodeXYN a x y sel) (f x y) :=
  ⟨_, hrow, Laws.encodeXYN_mask_n a x y sel, by simp [rowInstr_eq_fields]⟩

/-- Format XYN where the lowest nibble is an operand. -/
theorem isRowOf_encodeXYN {a : BitVec 4} {x y n : Fin 16} {f : RegIdx → RegIdx → Fin 16 → Instr}
    (hrow : ((0xF000, a.setWidth 16 <<< 12, fun x y n _ _ => f x y n) : OpcodeRow) ∈ opcodeMap) :
    IsRowOf (encodeXYN a x y (nibble n)) (f x y n) :=
  ⟨_, hrow, Laws.encodeXYN_mask a x y (nibble n), by simp [rowInstr_eq_fields]⟩

/-- The encoder writes each opcode's row of R86 with its operands as the fields. -/
theorem isRowOf_encode {i : Instr} (h : ∀ nnn, i ≠ .sys nnn) : IsRowOf (encode i) i := by
  cases i with
  | sys nnn => exact absurd rfl (h nnn)
  | cls => exact ⟨opcodeMap[0], List.getElem_mem _, rfl, rfl⟩
  | ret => exact ⟨opcodeMap[1], List.getElem_mem _, rfl, rfl⟩
  | jp _ | call _ | ldI _ | jpV0 _ => exact isRowOf_encodeNNN (by simp [opcodeMap])
  | seImm _ _ | sneImm _ _ | ldImm _ _ | addImm _ _ | rnd _ _ => exact isRowOf_encodeXKK (by simp [opcodeMap])
  | seReg _ _ | sneReg _ _ | ldReg _ _ | or _ _ | and _ _ | xor _ _ | addReg _ _ | sub _ _ | shr _ _ | subn _ _
  | shl _ _ => exact isRowOf_encodeXY (by simp [opcodeMap])
  | drw _ _ _ => exact isRowOf_encodeXYN (by simp [opcodeMap])
  | skp _ | sknp _ | ldVDt _ | ldK _ | ldDtV _ | ldStV _ | addI _ | ldF _ | ldB _ | ldMemV _ | ldVMem _ =>
    exact isRowOf_encodeXF (by simp [opcodeMap])

/-! ### Family 0x5 without STRICT_5_9 -/

/-- Without STRICT_5_9 the lowest nibble of 5xyn is not examined (R89). -/
theorem decode_5xyn {cfg : Config} {w : Word} (hcfg : cfg.strict59 = false) (hw : fieldA w = 0x5#4) :
    decode cfg w = .op (.seReg (fieldX w) (fieldY w)) := by
  simp [decode, hw, decodeFamily59, hcfg]

@[simp] theorem fieldA_and (v w : Word) : fieldA (v &&& w) = fieldA v &&& fieldA w := BitVec.extractLsb'_and

@[simp] theorem fieldA_or (v w : Word) : fieldA (v ||| w) = fieldA v ||| fieldA w := BitVec.extractLsb'_or

theorem fieldA_of_mask {w v : Word} (h : w &&& 0xF00F = v) : fieldA w = fieldA v := by
  have hmask : fieldA 0xF00F = BitVec.allOnes 4 := rfl
  rw [← h, fieldA_and, hmask, BitVec.and_allOnes]

theorem fieldX_or_3 (w : Word) : fieldX (w ||| 0x0003) = fieldX w := by
  simp [fieldX, BitVec.extractLsb'_or]

theorem fieldY_or_3 (w : Word) : fieldY (w ||| 0x0003) = fieldY w := by
  simp [fieldY, BitVec.extractLsb'_or]

theorem decode_5xy0_or_3 {cfg : Config} {w : Word} (hcfg : cfg.strict59 = false) (hw : w &&& 0xF00F = 0x5000) :
    decode cfg w = decode cfg (w ||| 0x0003) := by
  have ha : fieldA w = 0x5#4 := fieldA_of_mask hw
  have ha' : fieldA (w ||| 0x0003) = 0x5#4 := by rw [fieldA_or, ha]; rfl
  rw [decode_5xyn hcfg ha, decode_5xyn hcfg ha', fieldX_or_3, fieldY_or_3]

end Sys2Proof

open Sys2Proof

/-- Settles O2: the decoder takes back every opcode but SYS, and of SYS what the policy and the words 00E0 and
00EE leave; each word is its opcode's row, by format; 5xy0 and 5xy3 have the same fields but n. -/
theorem decodeInvertsEncode : Obligations.DecodeInvertsEncode :=
  ⟨decode_encode_iff, fun _ => isRowOf_encode, toNat_encode_sys, fun _ _ => decode_5xy0_or_3⟩

end

section
/-! The outcome of a completed instruction, as a function of the instruction and the keys (40_engine.md R106). -/

namespace Sys2Proof.Machine

/-- The outcome an instruction has when it completes: DRW asks for a redraw, a wait with no key pressed for
input (R106). -/
def Instr.outcome (i : Instr) (s : State) : StepOutcome :=
  match i with
  | .drw _ _ _ => .redrawRequested
  | .ldK _ => if lowestKey? s.keys = none then .awaitInput else .continued
  | _ => .continued

/-- A step that ends with an outcome has it, whatever it wrote before. -/
theorem State.outcome_of_eq_ended {t u : State} {w : Word} {o : StepOutcome} (e : t = u.ended w o) : t.outcome = o :=
  e ▸ u.ended_outcome w o

/-- A completed instruction ends with the outcome of `Instr.outcome`. -/
theorem exec_outcome {i : Instr} {s t : State} (h : exec i s = .next t) : t.outcome = Instr.outcome i s := by
  have h := (exec_next_iff i s t).1 h
  cases i with
  | drw _ _ _ | ldVMem _ =>
    obtain ⟨-, -, h⟩ := h
    exact State.outcome_of_eq_ended h
  | ldK x =>
    obtain ⟨k, hk, h⟩ | ⟨hnone, h⟩ := h
    · rw [State.outcome_of_eq_ended h, Instr.outcome, hk]
      rfl
    · rw [State.outcome_of_eq_ended h, Instr.outcome, if_pos hnone]
  | cls | jp _ | ldImm _ _ | ldI _ | rnd _ _ => exact State.outcome_of_eq_ended h
  | sys _ | ret | call _ | seImm _ _ | sneImm _ _ | seReg _ _ | sneReg _ _ | addImm _ _ | ldReg _ _ | or _ _ | and _ _
  | xor _ _ | addReg _ _ | sub _ _ | subn _ _ | shr _ _ | shl _ _ | jpV0 _ | ldVDt _ | ldDtV _ | ldStV _ | addI _
  | ldF _ => exact State.outcome_of_eq_ended h.2
  | skp _ | sknp _ =>
    obtain ⟨-, k, -, h⟩ := h
    exact State.outcome_of_eq_ended h
  | ldB _ | ldMemV _ =>
    obtain ⟨-, -, -, h⟩ := h
    exact State.outcome_of_eq_ended h

theorem Instr.outcome_eq_redrawRequested_iff {i : Instr} {s : State} :
    Instr.outcome i s = .redrawRequested ↔ ∃ x y n, i = .drw x y n := by
  cases i with
  | ldK _ => by_cases hk : lowestKey? s.keys = none <;> simp [Instr.outcome, hk]
  | _ => simp [Instr.outcome]

theorem Instr.outcome_eq_awaitInput_iff {i : Instr} {s : State} :
    Instr.outcome i s = .awaitInput ↔ (∃ x, i = .ldK x) ∧ ∀ k : Fin 16, s.keys[k] = false := by
  rw [← lowestKey?_eq_none_iff]
  cases i with
  | ldK _ => by_cases hk : lowestKey? s.keys = none <;> simp [Instr.outcome, hk]
  | _ => simp [Instr.outcome]

theorem StepOutcome.eq_continued_iff {o : StepOutcome} :
    o = .continued ↔ o ≠ .redrawRequested ∧ o ≠ .awaitInput := by
  cases o <;> decide

end Sys2Proof.Machine

open Sys2Proof Sys2Proof.Machine

/-- Settles O9: the outcome is `Instr.outcome`, which is RedrawRequested at DRW and AwaitInput at a blocked wait;
Continue is what remains. -/
theorem outcomesAreClassified : Obligations.OutcomesAreClassified := by
  intro i s t h
  have hredraw := Instr.outcome_eq_redrawRequested_iff (i := i) (s := s)
  have hawait := Instr.outcome_eq_awaitInput_iff (i := i) (s := s)
  rw [exec_outcome h]
  exact ⟨hredraw, hawait, StepOutcome.eq_continued_iff.trans (and_congr (not_congr hredraw) (not_congr hawait))⟩

end

section
/-! CALL on its own: the push below SP = 15, and the overflow fault at it (41_control_flow.md R123). -/

namespace Sys2Proof.Machine

/-- CALL below SP = 15 completes. -/
theorem exec_call_of_sp_ne (nnn : Addr12) {s : State} (hsp : s.sp ≠ 15) :
    exec (.call nnn) s = .next ({ s with
      stack := s.stack.set s.sp (s.pc + 2), sp := s.sp + 1 }.ended (nnn.setWidth 16)) :=
  (exec_next_iff (.call nnn) s _).2 ⟨hsp, rfl⟩

/-- CALL at SP = 15 faults; the site is the state's own PC and word. -/
theorem exec_call_of_sp_eq (nnn : Addr12) {s : State} (hsp : s.sp = 15) :
    exec (.call nnn) s = .fault (.stackOverflow s.site 15) := by
  simp [exec, execCall, State.raise, hsp]

/-- A completed CALL changes PC, SP and the slot that SP named. -/
theorem exec_call_frame {nnn : Addr12} {s t : State} (h : exec (.call nnn) s = .next t) :
    UnchangedBut [.pc, .sp, .stack s.sp] s t :=
  (exec_unchanged h).mono fun c hc => by simpa [Instr.changes] using hc

end Sys2Proof.Machine

open Sys2Proof Sys2Proof.Machine

/-- Settles O24: below SP = 15 CALL completes with its return address in the slot SP, and raising SP does not
wrap; at SP = 15 it is the fault. -/
theorem callPushesTheReturnAddress : Obligations.CallPushesTheReturnAddress := by
  intro nnn s
  refine ⟨fun hsp => ?_, exec_call_of_sp_eq nnn⟩
  have hcall := exec_call_of_sp_ne nnn hsp
  have hval : (s.sp + 1).val = s.sp.val + 1 := Fin.val_add_one_of_lt (lt_of_le_of_ne (Fin.le_last s.sp) hsp)
  have hpc : (nnn.setWidth 16).toNat = nnn.toNat := BitVec.toNat_setWidth_of_le (by decide)
  exact ⟨_, hcall, exec_call_slot hcall, hval, hpc, rfl, exec_call_frame hcall⟩

end

section
/-! An instruction that writes one register and goes on: LD Vx,kk and LD Vx,Vy (42_load_index.md R140, R141). -/

namespace Sys2Proof.Machine

/-- The state after a write of Vx that ends the step: Vx reads as written. -/
theorem State.getV_setV_ended_self (s : State) (x : RegIdx) (b : Byte) (w : Word) :
    ((s.setV x b).ended w).getV x = b := by
  simp

/-- A write of Vx that ends the step changes PC and Vx, VF too only where x = 0xF. -/
theorem State.setV_ended_frame (s : State) (x : RegIdx) (b : Byte) (w : Word) :
    UnchangedBut [.pc, .v x] s ((s.setV x b).ended w) :=
  ((s.setV_frame x b).ended rfl).mono fun c hc => by simpa using hc

/-- LD Vx,kk completes from every state: it reads no register. -/
theorem exec_ldImm (x : RegIdx) (kk : Byte) (s : State) :
    exec (.ldImm x kk) s = .next ((s.setV x kk).ended (s.pc + 2)) :=
  (exec_next_iff (.ldImm x kk) s _).2 rfl

/-- LD Vx,Vy completes where Vy may be read. -/
theorem exec_ldReg_of_mayRead (x : RegIdx) {y : RegIdx} {s : State} (hy : s.mayRead [.v y]) :
    exec (.ldReg x y) s = .next ((s.setV x (s.getV y)).ended (s.pc + 2)) :=
  (exec_next_iff (.ldReg x y) s _).2 ⟨hy, rfl⟩

end Sys2Proof.Machine

open Sys2Proof Sys2Proof.Machine

/-- Settles O29: both loads complete in a write of Vx that ends the step, of kk or of the old Vy. -/
theorem loadsWriteTheRegister : Obligations.LoadsWriteTheRegister := by
  constructor
  · intro x kk s
    exact ⟨_, exec_ldImm x kk s, s.getV_setV_ended_self x kk _, rfl, rfl, s.setV_ended_frame x kk _⟩
  · intro x y s hy
    exact ⟨_, exec_ldReg_of_mayRead x hy, s.getV_setV_ended_self x _ _, rfl, rfl, s.setV_ended_frame x _ _⟩

end

section
/-! ADD Vx,kk writes one register and goes on (43_arith.md R161). -/

namespace Sys2Proof.Machine

/-- The sum of two bytes, its carry discarded. -/
@[simp] theorem toNat_addResult (a b : Byte) : (addResult a b).toNat = (a.toNat + b.toNat) % 256 :=
  BitVec.toNat_ofNat _ _

/-- ADD Vx,kk completes where Vx may be read. -/
theorem exec_addImm_of_mayRead {x : RegIdx} (kk : Byte) {s : State} (hx : s.mayRead [.v x]) :
    exec (.addImm x kk) s = .next ((s.setV x (addResult (s.getV x) kk)).ended (s.pc + 2)) :=
  (exec_next_iff (.addImm x kk) s _).2 ⟨hx, rfl⟩

end Sys2Proof.Machine

open Sys2Proof Sys2Proof.Machine

/-- Settles O35: ADD Vx,kk completes in a write of Vx that ends the step, of the sum with its carry discarded;
VF is written only where it is the destination. -/
theorem addImmediateWraps : Obligations.AddImmediateWraps := by
  intro x kk s hx
  have hsum : (((s.setV x (addResult (s.getV x) kk)).ended (s.pc + 2)).getV x).toNat =
      ((s.getV x).toNat + kk.toNat) % 256 := by
    rw [State.getV_setV_ended_self, toNat_addResult]
  exact ⟨_, exec_addImm_of_mayRead kk hx, hsum, rfl, rfl, s.setV_ended_frame x _ _⟩

end

section
/-! CLS zeroes the display and goes on (44_display.md R180). -/

namespace Sys2Proof.Machine

/-- A pixel of the zeroed display buffer is clear, whatever its coordinates. -/
@[simp] theorem State.pixel_withDisp_zero (s : State) (px py : Nat) :
    ({ s with disp := 0 } : State).pixel px py = false :=
  BitVec.getLsbD_zero

/-- The end of a step leaves every pixel as it is. -/
@[simp] theorem State.ended_pixel (s : State) (w : Word) (o : StepOutcome) (px py : Nat) :
    (s.ended w o).pixel px py = s.pixel px py := rfl

/-- CLS completes from every state: it reads no register. -/
theorem exec_cls (s : State) : exec .cls s = .next ({ s with disp := 0 }.ended (s.pc + 2)) :=
  (exec_next_iff .cls s _).2 rfl

end Sys2Proof.Machine

open Sys2Proof Sys2Proof.Machine

/-- Settles O41: CLS completes in a zeroed display that ends the step, so PC and pixels are all it changes. -/
theorem clsClearsTheDisplay : Obligations.ClsClearsTheDisplay := by
  intro s
  have hclear : ∀ px py, px < 64 → py < 32 →
      ({ s with disp := 0 }.ended (s.pc + 2)).pixel px py = false := by
    intro px py _ _
    rw [State.ended_pixel, State.pixel_withDisp_zero]
  exact ⟨_, exec_cls s, hclear, rfl, rfl, (s.withDisp_frame 0).ended rfl⟩

end

section
/-! LD Vx,K: the lowest pressed key, or a wait that writes nothing (45_keypad_timer.md R193). -/

namespace Sys2Proof.Machine

/-- The index of a key, as a register holds it. -/
theorem toNat_ofNat_key (k : Fin 16) : (BitVec.ofNat 8 k.val).toNat = k.val :=
  (BitVec.toNat_ofNat k.val 8).trans (Nat.mod_eq_of_lt (by omega))

/-- A step that ends at the PC it began at changes no component, whatever its outcome. -/
theorem State.ended_at_pc_frame (s : State) (o : StepOutcome) : UnchangedBut [] s (s.ended s.pc o) := by
  intro c _
  by_cases hc : c = .pc
  · subst hc
    rfl
  · exact (Unchanged.refl (fun _ => False) s).ended rfl c (by simpa using hc)

/-- LD Vx,K with a lowest pressed key completes in a write of it to Vx. -/
theorem exec_ldK_of_lowestKey (x : RegIdx) {s : State} {k : Fin 16} (hk : lowestKey? s.keys = some k) :
    exec (.ldK x) s = .next ((s.setV x (BitVec.ofNat 8 k.val)).ended (s.pc + 2)) :=
  (exec_next_iff (.ldK x) s _).2 (Or.inl ⟨k, hk, rfl⟩)

/-- LD Vx,K with no key pressed waits where it is. -/
theorem exec_ldK_of_no_key (x : RegIdx) {s : State} (hnone : ∀ k : Fin 16, s.keys[k] = false) :
    exec (.ldK x) s = .next (s.ended s.pc .awaitInput) :=
  (exec_next_iff (.ldK x) s _).2 (Or.inr ⟨lowestKey?_eq_none_iff.2 hnone, rfl⟩)

end Sys2Proof.Machine

open Sys2Proof Sys2Proof.Machine

/-- Settles O45: with a key pressed the step is a write of Vx that ends the step, of the lowest pressed key;
with none it ends at the PC it began at, so nothing has changed. -/
theorem waitForKeyTakesTheLowestOrBlocks : Obligations.WaitForKeyTakesTheLowestOrBlocks := by
  intro x s
  constructor
  · intro k hk hlow
    have hload := exec_ldK_of_lowestKey x (lowestKey?_of_lowest hk hlow)
    have hval : (((s.setV x (BitVec.ofNat 8 k.val)).ended (s.pc + 2)).getV x).toNat = k.val := by
      rw [State.getV_setV_ended_self, toNat_ofNat_key]
    exact ⟨_, hload, hval, rfl, rfl, s.setV_ended_frame x _ _⟩
  · intro hnone
    exact ⟨_, exec_ldK_of_no_key x hnone, rfl, s.ended_at_pc_frame .awaitInput⟩

end

section
/-! A key change is the host's alone: it sets one key, and no step writes one (60_exceptions.md R222). -/

namespace Sys2Proof.Machine

/-- A key change changes that key alone. -/
theorem State.setKey_frame (s : State) (k : Fin 16) (b : Bool) : UnchangedBut [.key k] s (s.setKey k b) := by
  intro c hc
  cases c with
  | key j =>
    have hne : k ≠ j := fun e => hc (by simp [e])
    exact (s.keys_setKey k j b).trans (if_neg hne)
  | _ => simp [Component.same, State.byte, State.getV]

/-- No instruction changes a key. -/
theorem Instr.not_changes_key (i : Instr) (s : State) (k : Fin 16) : ¬ Instr.changes i s (.key k) := by
  cases i <;> simp [Instr.changes]

/-- A completed instruction leaves the keys as they are. -/
theorem exec_keys {i : Instr} {s t : State} (h : exec i s = .next t) : t.keys = s.keys := by
  have hkey : ∀ k : Fin 16, t.keys[k] = s.keys[k] := fun k => exec_unchanged h (.key k) (Instr.not_changes_key i s k)
  exact Vector.ext fun k hk => hkey ⟨k, hk⟩

/-- A completed step leaves the keys as they are. -/
theorem step_keys {s t : State} (h : step s = .next t) : t.keys = s.keys := by
  obtain ⟨w, i, -, -, -, hexec⟩ := step_next h
  exact exec_keys hexec

end Sys2Proof.Machine

open Sys2Proof Sys2Proof.Machine

/-- Settles O49: the request is `State.setKey`, whose frame is the one key; a completed step is a completed
instruction, and none has a key among its changes. -/
theorem setKeyChangesOneKey : Obligations.SetKeyChangesOneKey := by
  constructor
  · intro k b s
    have hset : (s.setKey k b).keys[k] = b := (s.keys_setKey k k b).trans (if_pos rfl)
    exact ⟨_, rfl, hset, rfl, s.setKey_frame k b⟩
  · intro s t h
    exact step_keys h

end

section
/-! What a completed instruction does to PC, to the configuration and to memory, each said once for all of `exec`
(40_engine.md R103; 10_state.md R21; 20_memory.md R51, R55, R59). -/

namespace Sys2Proof.Machine

/-! ### PC -/

/-- `w` is an address where the instruction may leave PC when it completes (R103). -/
def Instr.Targets (i : Instr) (s : State) (w : Word) : Prop :=
  match i with
  | .jp nnn | .call nnn => w = nnn.setWidth 16
  | .ret => w = s.stack[s.sp - 1]
  | .jpV0 nnn => w = nnn.setWidth 16 + (s.getV (jumpOffsetReg s.cfg nnn)).setWidth 16
  | .seImm _ _ | .sneImm _ _ | .seReg _ _ | .sneReg _ _ | .skp _ | .sknp _ => w = s.pc + 2 ∨ w = s.pc + 4
  | .ldK _ => w = if lowestKey? s.keys = none then s.pc else s.pc + 2
  | _ => w = s.pc + 2

/-- A step that ends at an address has PC there, whatever it wrote before. -/
theorem State.pc_of_eq_ended {t u : State} {w : Word} {o : StepOutcome} (e : t = u.ended w o) : t.pc = w :=
  e ▸ u.ended_pc w o

/-- A skip ends at the next instruction or the one after it. -/
theorem State.skip_pc {s t : State} {c : Bool} (e : t = s.ended (s.pc + (if c then 4 else 2))) :
    t.pc = s.pc + 2 ∨ t.pc = s.pc + 4 := by
  rw [State.pc_of_eq_ended e]
  cases c with
  | false => exact Or.inl rfl
  | true => exact Or.inr rfl

/-- A completed instruction leaves PC where `Instr.Targets` says. -/
theorem exec_pc {i : Instr} {s t : State} (h : exec i s = .next t) : Instr.Targets i s t.pc := by
  have h := (exec_next_iff i s t).1 h
  cases i with
  | seImm _ _ | sneImm _ _ | seReg _ _ | sneReg _ _ => exact State.skip_pc h.2
  | skp _ | sknp _ =>
    obtain ⟨-, k, -, h⟩ := h
    exact State.skip_pc h
  | ldK x =>
    obtain ⟨k, hk, h⟩ | ⟨hnone, h⟩ := h
    · exact (State.pc_of_eq_ended h).trans (by simp [hk])
    · exact (State.pc_of_eq_ended h).trans (by simp [hnone])
  | cls | jp _ | ldImm _ _ | ldI _ | rnd _ _ => exact State.pc_of_eq_ended h
  | drw _ _ _ | ldVMem _ =>
    obtain ⟨-, -, h⟩ := h
    exact State.pc_of_eq_ended h
  | ldB _ | ldMemV _ =>
    obtain ⟨-, -, -, h⟩ := h
    exact State.pc_of_eq_ended h
  | sys _ | ret | call _ | addImm _ _ | ldReg _ _ | or _ _ | and _ _ | xor _ _ | addReg _ _ | sub _ _ | subn _ _
  | shr _ _ | shl _ _ | jpV0 _ | ldVDt _ | ldDtV _ | ldStV _ | addI _ | ldF _ => exact State.pc_of_eq_ended h.2

/-! ### The configuration -/

/-- No instruction changes the configuration. -/
theorem Instr.not_changes_cfg (i : Instr) (s : State) : ¬ Instr.changes i s .cfg := by
  cases i <;> simp [Instr.changes]

/-- A completed instruction leaves the configuration as it is. -/
theorem exec_cfg {i : Instr} {s t : State} (h : exec i s = .next t) : t.cfg = s.cfg :=
  exec_unchanged h .cfg (Instr.not_changes_cfg i s)

/-- A completed step leaves the configuration as it is. -/
theorem step_cfg {s t : State} (h : step s = .next t) : t.cfg = s.cfg := by
  obtain ⟨w, i, -, -, -, hexec⟩ := step_next h
  exact exec_cfg hexec

/-! ### Memory -/

/-- The bytes an instruction stores at I on: the digits of LD B, the registers of LD [I],Vx. -/
def Instr.stored (i : Instr) (s : State) : List Byte :=
  match i with
  | .ldB x => bcdDigits (s.getV x)
  | .ldMemV x => s.registers (x.val + 1)
  | _ => []

@[simp] theorem State.setWithFlag_mem (s : State) (x : RegIdx) (r f : Byte) : (s.setWithFlag x r f).mem = s.mem := by
  rw [State.setWithFlag_frame]

@[simp] theorem State.setLogic_mem (s : State) (x : RegIdx) (r : Byte) : (s.setLogic x r).mem = s.mem := by
  cases h : s.cfg.logicVfReset <;> simp [State.setLogic, h]

@[simp] theorem State.stepIndex_mem (s : State) (x : RegIdx) : (s.stepIndex x).mem = s.mem := by
  rw [State.stepIndex_only_index]

/-- Memory after a completed instruction is memory with the stored bytes at I on; I is the old one. -/
theorem exec_mem {i : Instr} {s t : State} (h : exec i s = .next t) :
    t.mem = (s.setBytes s.index.toNat (Instr.stored i s)).mem := by
  have h := (exec_next_iff i s t).1 h
  cases i with
  | cls | jp _ | ldImm _ _ | ldI _ | rnd _ _ =>
    subst h
    rfl
  | ldK x =>
    obtain ⟨k, -, rfl⟩ | ⟨-, rfl⟩ := h
    · rfl
    · rfl
  | skp _ | sknp _ =>
    obtain ⟨-, k, -, rfl⟩ := h
    rfl
  | drw _ _ _ =>
    obtain ⟨-, -, rfl⟩ := h
    rfl
  | ldVMem _ =>
    obtain ⟨-, -, rfl⟩ := h
    simp [Instr.stored, State.setBytes]
  | ldB _ =>
    obtain ⟨-, -, -, rfl⟩ := h
    rfl
  | ldMemV _ =>
    obtain ⟨-, -, -, rfl⟩ := h
    simp [Instr.stored]
  | or _ _ | and _ _ | xor _ _ | addReg _ _ | sub _ _ | subn _ _ | shr _ _ | shl _ _ =>
    obtain ⟨-, rfl⟩ := h
    simp [Instr.stored, State.setBytes]
  | sys _ | ret | call _ | seImm _ _ | sneImm _ _ | seReg _ _ | sneReg _ _ | addImm _ _ | ldReg _ _ | jpV0 _
  | ldVDt _ | ldDtV _ | ldStV _ | addI _ | ldF _ =>
    obtain ⟨-, rfl⟩ := h
    rfl

/-- A completed instruction that stores had its range inside memory, and outside a protected font region. -/
theorem exec_store_range {i : Instr} {s t : State} (h : exec i s = .next t) (hne : Instr.stored i s ≠ []) :
    s.index.toNat + (Instr.stored i s).length ≤ 0x1000 ∧
      (s.cfg.fontWritePolicy = .fault → 0x050 ≤ s.index.toNat) := by
  have h := (exec_next_iff i s t).1 h
  cases i with
  | ldB _ =>
    obtain ⟨-, hrange, hfont, -⟩ := h
    exact ⟨hrange, hfont⟩
  | ldMemV _ =>
    obtain ⟨-, hrange, hfont, -⟩ := h
    exact ⟨by simpa [Instr.stored, State.registers_length] using hrange, hfont⟩
  | _ => exact absurd rfl hne

/-- The range of a completed instruction's bytes, empty or not, lies inside memory. -/
theorem exec_store_le {i : Instr} {s t : State} (h : exec i s = .next t) :
    Instr.stored i s = [] ∨ s.index.toNat + (Instr.stored i s).length ≤ memSize :=
  or_iff_not_imp_left.2 fun hne => (exec_store_range h hne).1

/-- A completed instruction keeps memory in canonical form. -/
theorem exec_memWf {i : Instr} {s t : State} (h : exec i s = .next t) (hwf : s.memWf) : t.memWf := by
  have hset : (s.setBytes s.index.toNat (Instr.stored i s)).memWf := by
    obtain hnil | hle := exec_store_le h
    · rwa [hnil]
    · exact State.memWf_setBytes hwf hle
  rwa [State.memWf, State.setBytes_cfg, ← exec_mem h, ← exec_cfg h] at hset

/-- A byte after a completed instruction: the stored one in the range of its store, the old one outside. -/
theorem exec_byte {i : Instr} {s t : State} (h : exec i s = .next t) (hwf : s.memWf) (a : Nat) :
    t.byte a =
      if s.index.toNat ≤ a ∧ a < s.index.toNat + (Instr.stored i s).length then
        (Instr.stored i s).getD (a - s.index.toNat) 0
      else s.byte a := by
  rw [State.byte_of_eq (exec_mem h) ((exec_cfg h).trans (s.setBytes_cfg _ _).symm)]
  obtain hnil | hle := exec_store_le h
  · have hout : ¬ (s.index.toNat ≤ a ∧ a < s.index.toNat + 0) := by omega
    rw [hnil, List.length_nil, if_neg hout, State.setBytes]
  · exact State.byte_setBytes hwf hle a

/-- A byte that differs after a completed instruction is one of a store's range. -/
theorem exec_byte_ne {i : Instr} {s t : State} (h : exec i s = .next t) (hwf : s.memWf) {a : Nat}
    (hne : t.byte a ≠ s.byte a) :
    s.index.toNat ≤ a ∧ a < s.index.toNat + (Instr.stored i s).length := by
  by_contra hout
  exact hne ((exec_byte h hwf a).trans (if_neg hout))

/-- Such a byte lies below 0x1000 and outside a protected font region. -/
theorem exec_byte_ne_range {i : Instr} {s t : State} (h : exec i s = .next t) (hwf : s.memWf) {a : Nat}
    (hne : t.byte a ≠ s.byte a) : a < 0x1000 ∧ (s.cfg.fontWritePolicy = .fault → 0x050 ≤ a) := by
  obtain ⟨hlo, hhi⟩ := exec_byte_ne h hwf hne
  have hstored : Instr.stored i s ≠ [] := fun e => by
    rw [e, List.length_nil] at hhi
    omega
  obtain ⟨hrange, hfont⟩ := exec_store_range h hstored
  exact ⟨by omega, fun e => (hfont e).trans hlo⟩

end Sys2Proof.Machine
end

section
/-! The invariant over one step (10_state.md R28, R29, R37; 20_memory.md R59, R60): each of its clauses on its
own. -/

namespace Sys2Proof.Machine

/-- PC + 2 or PC + 4 of a PC a fetch succeeds at does not wrap. -/
theorem toNat_pc_add {pc : Word} (hpc : pc.toNat ≤ 0xFFE) :
    (pc + 2).toNat = pc.toNat + 2 ∧ (pc + 4).toNat = pc.toNat + 4 := by
  constructor <;> bv_omega

theorem toNat_addr (nnn : Addr12) : (nnn.setWidth 16).toNat = nnn.toNat :=
  BitVec.toNat_setWidth_of_le (by decide)

/-- The sum of JP V0 does not wrap: it is at most 0x10FE (41_control_flow.md R128). -/
theorem toNat_addr_add (nnn : Addr12) (b : Byte) :
    (nnn.setWidth 16 + b.setWidth 16).toNat = nnn.toNat + b.toNat := by
  have hn := nnn.isLt
  have hb := b.isLt
  rw [BitVec.toNat_add, toNat_addr, BitVec.toNat_setWidth_of_le (by decide)]
  omega

/-- A completed instruction at an address a fetch succeeds at leaves PC at most 0x10FE. -/
theorem exec_pc_le {i : Instr} {s t : State} (h : exec i s = .next t) (hpc : s.pc.toNat ≤ 0xFFE)
    (hslots : ∀ j : Fin 16, s.stack[j].toNat ≤ 0x1000) : t.pc.toNat ≤ 0x10FE := by
  obtain ⟨h2, h4⟩ := toNat_pc_add hpc
  have htarget := exec_pc h
  cases i with
  | ret =>
    have := hslots (s.sp - 1)
    rw [show t.pc = s.stack[s.sp - 1] from htarget]
    exact this.trans (by decide)
  | jp nnn | call nnn =>
    rw [show t.pc = nnn.setWidth 16 from htarget, toNat_addr]
    omega
  | jpV0 nnn =>
    rw [show t.pc = nnn.setWidth 16 + (s.getV (jumpOffsetReg s.cfg nnn)).setWidth 16 from htarget, toNat_addr_add]
    omega
  | seImm _ _ | sneImm _ _ | seReg _ _ | sneReg _ _ | skp _ | sknp _ =>
    obtain e | e : t.pc = s.pc + 2 ∨ t.pc = s.pc + 4 := htarget <;> rw [e] <;> omega
  | ldK _ =>
    rw [show t.pc = if lowestKey? s.keys = none then s.pc else s.pc + 2 from htarget]
    split <;> omega
  | _ =>
    rw [show t.pc = s.pc + 2 from htarget]
    omega

/-- A completed instruction leaves each stack slot as it is, but for CALL, which pushes PC + 2 into the slot SP,
and that is not slot 15. -/
theorem exec_slot {i : Instr} {s t : State} (h : exec i s = .next t) (j : Fin 16) :
    t.stack[j] = s.stack[j] ∨ (j ≠ 15 ∧ t.stack[j] = s.pc + 2) := by
  by_cases hc : Instr.changes i s (.stack j)
  · obtain ⟨⟨nnn, rfl⟩, rfl⟩ := Instr.changes_stack.1 hc
    exact Or.inr ⟨((exec_next_iff _ s t).1 h).1, exec_call_slot h⟩
  · exact Or.inl (exec_unchanged h (.stack j) hc)

/-- A completed instruction keeps a protected font region. -/
theorem exec_font {i : Instr} {s t : State} (h : exec i s = .next t) (hwf : s.memWf)
    (hpolicy : s.cfg.fontWritePolicy = .fault) (a : Fin 80) : t.byte a.val = s.byte a.val := by
  by_contra hne
  have := (exec_byte_ne_range h hwf hne).2 hpolicy
  omega

end Sys2Proof.Machine

open Sys2Proof Sys2Proof.Machine

/-- Settles O55, clause by clause: a completed step is a completed instruction at a PC of at most 0xFFE; a jump
target or a popped slot is bounded, a pushed address is PC + 2, and a store keeps the canonical form and stays out
of a protected font region. -/
theorem stepKeepsTheInvariant : Obligations.StepKeepsTheInvariant := by
  intro s t hinv h
  obtain ⟨w, i, hpc, -, -, hexec⟩ := step_next h
  refine ⟨exec_memWf hexec hinv.memory, exec_pc_le hexec hpc hinv.slots, fun j => ?_, ?_, fun hpolicy a => ?_⟩
  · obtain e | ⟨-, e⟩ := exec_slot hexec j
    · exact e ▸ hinv.slots j
    · rw [e, (toNat_pc_add hpc).1]
      omega
  · obtain e | ⟨hne, -⟩ := exec_slot hexec 15
    · exact e.trans hinv.slot15
    · exact absurd rfl hne
  · rw [exec_cfg hexec] at hpolicy ⊢
    exact (exec_font hexec hinv.memory hpolicy a).trans (hinv.font hpolicy a)

end

section
/-! Construction, load and the host's requests: they keep the configuration and the invariant, so every reachable
state meets it (70_reset_and_hazards.md R240 to R242; 60_exceptions.md R213). -/

namespace Sys2Proof.Machine

/-! ### Construction and load -/

/-- A byte of the constructed state: the font table's, and 0 above it (10_state.md R39). -/
theorem byte_construct (cfg : Config) (a : Nat) : (State.construct cfg).byte a = cfg.fontTable[a]?.getD 0 := rfl

theorem byte_construct_font (cfg : Config) (a : Fin 80) : (State.construct cfg).byte a.val = cfg.fontTable[a] := by
  rw [byte_construct, Vector.getElem?_eq_getElem a.isLt]
  rfl

theorem byte_construct_above (cfg : Config) {a : Nat} (ha : 0x050 ≤ a) : (State.construct cfg).byte a = 0 := by
  rw [byte_construct, Vector.getElem?_eq_none ha]
  rfl

/-- The constructed state meets the invariant. -/
theorem inv_construct (cfg : Config) : Inv (State.construct cfg) where
  memory := rfl
  pc     := (by decide : (0x200#16).toNat ≤ 0x10FE)
  slots j := by simp [State.construct]
  slot15 := by simp [State.construct]
  font   := fun _ => byte_construct_font cfg

/-- A load that is not refused has room for the image, and stores it at 0x200 on. -/
theorem load_next_iff {s t : State} {image : List Byte} :
    s.load image = .next t ↔ image.length ≤ maxImage ∧ t = s.setBytes progBase image := by
  by_cases hle : image.length ≤ maxImage
  · simp [State.load, hle, eq_comm]
  · simp [State.load, hle]

/-- The room above 0x200 is memory's. -/
theorem progBase_add_le {n : Nat} (h : n ≤ maxImage) : progBase + n ≤ memSize :=
  Nat.add_le_add_left h progBase

/-- A load stores nothing below 0x200. -/
theorem byte_load_below {s : State} {image : List Byte} (hwf : s.memWf) (hle : image.length ≤ maxImage) {a : Nat}
    (ha : a < progBase) : (s.setBytes progBase image).byte a = s.byte a := by
  have hout : ¬ (progBase ≤ a ∧ a < progBase + image.length) := fun h => absurd h.1 (Nat.not_le.2 ha)
  exact (State.byte_setBytes hwf (progBase_add_le hle) a).trans (if_neg hout)

/-- A load keeps the invariant: it stores above the font region. -/
theorem inv_load {s t : State} {image : List Byte} (hinv : Inv s) (h : s.load image = .next t) : Inv t := by
  obtain ⟨hle, rfl⟩ := load_next_iff.1 h
  refine ⟨State.memWf_setBytes hinv.memory (progBase_add_le hle), ?_, ?_, ?_, fun hpolicy a => ?_⟩
  · rw [State.setBytes_pc]
    exact hinv.pc
  · rw [State.setBytes_stack]
    exact hinv.slots
  · rw [State.setBytes_stack]
    exact hinv.slot15
  · rw [State.setBytes_cfg] at hpolicy ⊢
    have ha : a.val < progBase := a.isLt.trans (by decide)
    exact (byte_load_below hinv.memory hle ha).trans (hinv.font hpolicy a)

theorem load_cfg {s t : State} {image : List Byte} (h : s.load image = .next t) : t.cfg = s.cfg := by
  obtain ⟨-, rfl⟩ := load_next_iff.1 h
  exact s.setBytes_cfg progBase image

/-! ### The host's requests -/

/-- The invariant speaks of memory, PC, the stack and the configuration alone. -/
theorem Inv.of_eq {s t : State} (h : Inv s) (hmem : t.mem = s.mem) (hpc : t.pc = s.pc) (hstack : t.stack = s.stack)
    (hcfg : t.cfg = s.cfg) : Inv t where
  memory := by
    rw [hmem, hcfg]
    exact h.memory
  pc     := hpc ▸ h.pc
  slots  := hstack ▸ h.slots
  slot15 := hstack ▸ h.slot15
  font   := fun hpolicy a => by
    rw [State.byte_of_eq hmem hcfg, hcfg]
    exact h.font (hcfg ▸ hpolicy) a

/-- No request of the host changes the configuration. -/
theorem perform_cfg (e : HostEvent) (s : State) : (perform e s).2.cfg = s.cfg :=
  perform_state (P := fun t => t.cfg = s.cfg) e rfl (fun t h => t.afterStep_cfg.trans h) (fun _ => step_cfg) rfl
    fun _ _ => rfl

/-- Every request of the host keeps the invariant. -/
theorem inv_perform (e : HostEvent) {s : State} (hinv : Inv s) : Inv (perform e s).2 :=
  perform_state e hinv
    (fun t h => h.of_eq t.afterStep_mem t.afterStep_pc t.afterStep_stack t.afterStep_cfg)
    (fun t => stepKeepsTheInvariant s t hinv)
    (hinv.of_eq rfl rfl rfl rfl) fun _ _ => hinv.of_eq rfl rfl rfl rfl

theorem Reachable.inv {cfg : Config} {image : List Byte} {s : State} (h : Reachable cfg image s) : Inv s := by
  induction h with
  | boot s hload => exact inv_load (inv_construct cfg) hload
  | event s e _ ih => exact inv_perform e ih

/-- A reachable state has the configuration it was constructed with. -/
theorem Reachable.cfg_eq {cfg : Config} {image : List Byte} {s : State} (h : Reachable cfg image s) :
    s.cfg = cfg := by
  induction h with
  | boot s hload => exact load_cfg hload
  | event s e _ ih => exact (perform_cfg e s).trans ih

end Sys2Proof.Machine

open Sys2Proof Sys2Proof.Machine

/-- Settles O54: the constructed state's memory has no cell and its stack is zero; a load stores from 0x200 on. -/
theorem bootMeetsTheInvariant : Obligations.BootMeetsTheInvariant :=
  ⟨inv_construct, fun _ _ _ => inv_load⟩

/-- Settles O56, by induction on the run: boot meets the invariant and every request of the host keeps it. -/
theorem reachableStatesMeetTheInvariant : Obligations.ReachableStatesMeetTheInvariant :=
  fun _ _ _ => Reachable.inv

/-- Settles O57: the font clause of the invariant, in the configuration the run began with. -/
theorem fontTableIsNeverMutated : Obligations.FontTableIsNeverMutated := by
  intro cfg image s hpolicy h a
  have hcfg := h.cfg_eq
  subst hcfg
  exact h.inv.font hpolicy a

/-- Settles O58: `perform_live_slot`, which the return of a CALL rests on. -/
theorem liveStackEntriesAreKept : Obligations.LiveStackEntriesAreKept :=
  fun e _ _ => perform_live_slot e

/-- Settles O17: no instruction has the configuration among its changes, and no event of the host writes it. -/
theorem configurationIsFixed : Obligations.ConfigurationIsFixed :=
  ⟨perform_cfg, fun _ _ _ => load_cfg⟩

/-- Settles O53: a load that fits is one store at 0x200 on, whose range lies inside memory. -/
theorem loadCopiesTheImage : Obligations.LoadCopiesTheImage := by
  intro s image hwf
  constructor
  · intro hle
    refine ⟨_, load_next_iff.2 ⟨hle, rfl⟩, fun k hk => ?_, State.setBytes_frame hwf (progBase_add_le hle)⟩
    have hin : progBase ≤ 0x200 + k ∧ 0x200 + k < progBase + image.length := 
      ⟨Nat.le_add_right _ k, Nat.add_lt_add_left hk _⟩
    rw [State.byte_setBytes hwf (progBase_add_le hle), if_pos hin, Nat.add_sub_cancel_left]
  · intro hlt
    exact if_neg (Nat.not_le.2 hlt)

/-- Settles O52: construction by its fields, a byte by the font table it reads as; the defaults are those of R9,
and the default table is R35's. -/
theorem constructionLeavesTheResetValues : Obligations.ConstructionLeavesTheResetValues := by
  refine ⟨fun cfg => ?_, rfl, ?_, ?_⟩
  · refine ⟨byte_construct_font cfg, fun a ha _ => byte_construct_above cfg ha, ?_⟩
    have hwritten : ∀ r, Written.nothing.has r = false := by
      intro r
      cases r <;> simp [Written.has, Written.nothing]
    simp [State.construct, State.getV, State.pixel, hwritten]
  · decide
  · decide

end

section
/-! Whole-machine rules read off the frame of `exec`, its PC and its store (40_engine.md R103; 10_state.md R26, R29
to R34; 20_memory.md R51, R55). -/

namespace Sys2Proof.Machine

/-- A component that differs after a completed instruction is among its changes. -/
theorem exec_changes_of_not_same {i : Instr} {s t : State} (h : exec i s = .next t) {c : Component}
    (hc : ¬ c.same s t) : Instr.changes i s c := by
  by_contra hn
  exact hc (exec_unchanged h c hn)

/-- Two displays with the same pixels are the same. -/
theorem disp_ext {d d' : BitVec 2048} (h : ∀ p : Fin 2048, d'.getLsbD p = d.getLsbD p) : d' = d :=
  BitVec.eq_of_getLsbD_eq fun k hk => h ⟨k, hk⟩

/-- The displays differ only where some pixel does. -/
theorem exists_pixel_of_disp_ne {s t : State} (h : t.disp ≠ s.disp) : ∃ p, ¬ (Component.pixel p).same s t := by
  by_contra hn
  exact h (disp_ext fun p => not_not.1 (not_exists.1 hn p))

/-! ### Who changes what -/

theorem Instr.changes_sp {i : Instr} {s : State} : Instr.changes i s .sp ↔ i = .ret ∨ ∃ nnn, i = .call nnn := by
  cases i <;> simp [Instr.changes]

theorem Instr.changes_pixel {i : Instr} {s : State} {p : Fin 2048} :
    Instr.changes i s (.pixel p) ↔ i = .cls ∨ ∃ x y n, i = .drw x y n := by
  cases i <;> simp [Instr.changes]

theorem Instr.changes_dt {i : Instr} {s : State} : Instr.changes i s .dt ↔ ∃ x, i = .ldDtV x := by
  cases i <;> simp [Instr.changes]

theorem Instr.changes_st {i : Instr} {s : State} : Instr.changes i s .st ↔ ∃ x, i = .ldStV x := by
  cases i <;> simp [Instr.changes]

theorem Instr.changes_index {i : Instr} {s : State} :
    Instr.changes i s .index ↔
      (∃ nnn, i = .ldI nnn) ∨ (∃ x, i = .addI x) ∨ (∃ x, i = .ldF x) ∨
        (s.cfg.loadStoreIncrement ≠ .none ∧ ((∃ x, i = .ldMemV x) ∨ ∃ x, i = .ldVMem x)) := by
  cases i <;> simp [Instr.changes]

end Sys2Proof.Machine

open Sys2Proof Sys2Proof.Machine

/-- Settles O10, by `exec_pc`; the outcome of the wait says which of its two targets it is. -/
theorem pcAdvancesByTwoUnlessBranching : Obligations.PcAdvancesByTwoUnlessBranching := by
  intro i s t h
  have hpc := exec_pc h
  cases i with
  | jp _ | call _ | ret | jpV0 _ => trivial
  | ldK x =>
    have hpc : t.pc = if lowestKey? s.keys = none then s.pc else s.pc + 2 := hpc
    have hout : t.outcome = if lowestKey? s.keys = none then .awaitInput else .continued := exec_outcome h
    by_cases hnone : lowestKey? s.keys = none
    · rw [if_pos hnone] at hpc hout
      exact ⟨fun _ => hpc, fun e => absurd (hout.symm.trans e) (by decide)⟩
    · rw [if_neg hnone] at hpc hout
      exact ⟨fun e => absurd (hout.symm.trans e) (by decide), fun _ => hpc⟩
  | _ => exact hpc

/-- Settles O14: the stack and SP among the changes of an instruction. -/
theorem onlyCallAndRetTouchTheStack : Obligations.OnlyCallAndRetTouchTheStack := by
  intro i s t h
  constructor
  · intro j hj
    exact Instr.changes_stack.1 (exec_changes_of_not_same h (c := .stack j) hj)
  · intro hsp
    exact Instr.changes_sp.1 (exec_changes_of_not_same h (c := .sp) hsp)

/-- Settles O15: the keys, pixels, timers and I among the changes of an instruction. -/
theorem keysDisplayTimersIndexHaveTheirWriters : Obligations.KeysDisplayTimersIndexHaveTheirWriters := by
  intro i s t h
  refine ⟨exec_keys h, fun hdisp => ?_, fun hdt => ?_, fun hst => ?_, fun hindex => ?_⟩
  · obtain ⟨p, hp⟩ := exists_pixel_of_disp_ne hdisp
    exact Instr.changes_pixel.1 (exec_changes_of_not_same h hp)
  · exact Instr.changes_dt.1 (exec_changes_of_not_same h (c := .dt) fun e => hdt e.1)
  · exact Instr.changes_st.1 (exec_changes_of_not_same h (c := .st) fun e => hst e.1)
  · exact Instr.changes_index.1 (exec_changes_of_not_same h (c := .index) fun e => hindex e.1)

/-- Settles O16: a byte that differs lies in the range of a store, and only two instructions store. -/
theorem onlyTheTwoStoresChangeMemory : Obligations.OnlyTheTwoStoresChangeMemory := by
  intro i s t a hwf h hne
  obtain ⟨hlt, hfont⟩ := exec_byte_ne_range h hwf hne
  obtain ⟨hlo, hhi⟩ := exec_byte_ne h hwf hne
  refine ⟨hlt, hfont, ?_⟩
  cases i with
  | ldB x =>
    have hlen : (Instr.stored (.ldB x) s).length = 3 := rfl
    exact Or.inl ⟨⟨x, rfl⟩, hlo, by omega⟩
  | ldMemV x =>
    have hlen : (Instr.stored (.ldMemV x) s).length = x.val + 1 := s.registers_length _
    exact Or.inr ⟨x, rfl, hlo, by omega⟩
  | _ => exact absurd (hlo.trans_lt hhi) (lt_irrefl _)

end

section
/-! The fault table against the handlers (60_exceptions.md R201 to R206): an instruction whose reads are not allowed
is the uninitialised read, and any other faults with its own fault if it owes one and completes if it owes none. -/

namespace Sys2Proof.Machine

/-! ### Reads -/

/-- The reads of an instruction count as a set. -/
theorem State.mayRead_congr {s : State} {rs rs' : List Reg} (h : ∀ r, r ∈ rs ↔ r ∈ rs') :
    s.mayRead rs ↔ s.mayRead rs' :=
  or_congr_right (forall_congr' fun r => by rw [h r])

theorem State.mayRead_nil (s : State) : s.mayRead [] := Or.inr fun _ h => absurd h List.not_mem_nil

theorem State.mayRead_swap {s : State} {q r : Reg} : s.mayRead [q, r] ↔ s.mayRead [r, q] :=
  State.mayRead_congr fun a => by simp [or_comm]

/-- JP V0 reads its offset register: x = nnn[11:8] is a quotient (R128). -/
theorem Instr.reads_jpV0 (cfg : Config) (nnn : Addr12) :
    Instr.reads cfg (.jpV0 nnn) = [.v (jumpOffsetReg cfg nnn)] := by
  cases h : cfg.jumpOffsetReg <;>
    simp [Instr.reads, jumpOffsetReg, h, BitVec.extractLsb', Nat.shiftRight_eq_div_pow]

theorem readsUnwritten_iff {i : Instr} {s : State} :
    readsUnwritten i s = true ↔ ¬ s.mayRead (Instr.reads s.cfg i) := by
  cases h : s.cfg.initRegPolicy <;> simp [readsUnwritten, State.mayRead, h]

/-- A handler whose reads are not allowed is the uninitialised read, before any other check (log entry 5). -/
theorem exec_of_not_mayRead {i : Instr} {s : State} (h : ¬ s.mayRead (Instr.reads s.cfg i)) :
    exec i s = .fault (.unspecified s.site .uninitializedRead) := by
  cases i with
  | sys _ | cls | ret | jp _ | call _ | ldImm _ _ | ldI _ | rnd _ _ | ldK _ => exact absurd s.mayRead_nil h
  | addI x => exact State.reading_of_not_mayRead (mt State.mayRead_swap.1 h) _
  | jpV0 nnn =>
    rw [Instr.reads_jpV0] at h
    exact State.reading_of_not_mayRead h _
  | _ => exact State.reading_of_not_mayRead h _

/-! ### Faults of the shared operations -/

/-- A store of at least one byte past 0xFFF is the fault of R204. -/
theorem State.memWrite_of_not_inBounds {s : State} {a n : Nat} {bs : List Byte} (hlen : bs.length = n) (hpos : 0 < n)
    (hb : 0x1000 < a + n) (k : State → Result) :
    s.memWrite a bs k = .fault (.outOfBoundsMemoryAccess s.site a n) := by
  subst hlen
  have hout : inBounds a bs.length = false := by
    rw [← Bool.not_eq_true, inBounds_iff]
    omega
  simp [State.memWrite, hout, State.raise]

/-- A store inside memory that begins in a protected font region is the fault of R59. -/
theorem State.memWrite_of_font {s : State} {a n : Nat} {bs : List Byte} (hlen : bs.length = n) (hpos : 0 < n)
    (hb : a + n ≤ 0x1000) (hpolicy : s.cfg.fontWritePolicy = .fault) (ha : a < 0x050) (k : State → Result) :
    s.memWrite a bs k = .fault (.unspecified s.site .fontRegionWrite) := by
  subst hlen
  have hin : inBounds a bs.length = true := inBounds_iff.2 (Or.inr hb)
  simp [State.memWrite, hin, hpolicy, hpos, fontEnd, ha, State.raise]

/-- A read at I gives its bytes on, but for the fault of its range. -/
theorem State.memRead_eq_elim (s : State) (n : Nat) (k : List Byte → Result) :
    s.memRead s.index.toNat n k = (rangeFault s n).elim (k (s.bytes s.index.toNat n)) .fault := by
  by_cases hout : 0 < n ∧ 0x1000 < s.index.toNat + n
  · rw [State.memRead_of_not_inBounds (by omega), rangeFault, if_pos hout]
    rfl
  · rw [State.memRead_of_inBounds (by omega), rangeFault, if_neg hout]
    rfl

/-- A store at I gives the written state on, but for the faults of its range and of the font region. -/
theorem State.memWrite_eq_elim (s : State) {bs : List Byte} {n : Nat} (hlen : bs.length = n) (hpos : 0 < n)
    (k : State → Result) :
    s.memWrite s.index.toNat bs k = (storeFault s n).elim (k (s.setBytes s.index.toNat bs)) .fault := by
  subst hlen
  by_cases hout : 0 < bs.length ∧ 0x1000 < s.index.toNat + bs.length
  · rw [State.memWrite_of_not_inBounds rfl hpos hout.2, storeFault, rangeFault, if_pos hout]
    rfl
  · rw [storeFault, rangeFault, if_neg hout]
    by_cases hfont : s.index.toNat < 0x050 ∧ s.cfg.fontWritePolicy = .fault
    · rw [State.memWrite_of_font rfl hpos (by omega) hfont.2 hfont.1]
      simp only [if_pos hfont]
      rfl
    · rw [State.memWrite_of_ok (by omega)]
      · simp only [if_neg hfont]
        rfl
      · cases hpolicy : s.cfg.fontWritePolicy with
        | allow => exact Or.inl rfl
        | fault => exact Or.inr (Nat.le_of_not_lt fun hlt => hfont ⟨hlt, hpolicy⟩)

/-- The low nibble of a byte. -/
theorem toNat_and_0F (b : Byte) : (b &&& 0x0F).toNat = b.toNat % 16 := by
  rw [BitVec.toNat_and]
  exact Nat.and_two_pow_sub_one_eq_mod b.toNat 4

/-- The key index where it is in range or reduced (45_keypad_timer.md R190). -/
theorem keyIndex?_eq_some {cfg : Config} {b : Byte} (h : b.toNat ≤ 0xF ∨ cfg.keyIndexPolicy = .lowNibble) :
    keyIndex? cfg b = some (Fin.ofNat 16 b.toNat) := by
  by_cases hle : b.toNat ≤ 0xF
  · simp [keyIndex?, hle]
  · have hpolicy := h.resolve_left hle
    rw [keyIndex?, if_neg hle]
    simp only [hpolicy, toNat_and_0F]
    exact congrArg some (Fin.ext (Nat.mod_mod _ 16))

theorem keyIndex?_eq_none {cfg : Config} {b : Byte} (h : 0xF < b.toNat) (hpolicy : cfg.keyIndexPolicy = .fault) :
    keyIndex? cfg b = none := by
  simp [keyIndex?, Nat.not_le.2 h, hpolicy]

theorem State.withKey_of_some {s : State} {x : RegIdx} {i : Fin 16} (h : keyIndex? s.cfg (s.getV x) = some i)
    (k : Bool → Result) : s.withKey x k = k s.keys[i] := by
  rw [State.withKey, h]

theorem State.withKey_of_none {s : State} {x : RegIdx} (h : keyIndex? s.cfg (s.getV x) = none)
    (k : Bool → Result) : s.withKey x k = .fault (.unspecified s.site .keyIndexRange) := by
  rw [State.withKey, h]
  rfl

/-- A key skip gives some key's state on, but for the fault of the key index. -/
theorem State.withKey_eq_elim (s : State) (x : RegIdx) (k : Bool → Result) :
    s.withKey x k = (keyFault s x).elim (k s.keys[Fin.ofNat 16 (s.getV x).toNat]) .fault := by
  by_cases hout : 0xF < (s.getV x).toNat ∧ s.cfg.keyIndexPolicy = .fault
  · rw [State.withKey_of_none (keyIndex?_eq_none hout.1 hout.2), keyFault, if_pos hout]
    rfl
  · have hok : (s.getV x).toNat ≤ 0xF ∨ s.cfg.keyIndexPolicy = .lowNibble := by
      cases hpolicy : s.cfg.keyIndexPolicy with
      | lowNibble => exact Or.inr rfl
      | fault => exact Or.inl (Nat.le_of_not_lt fun hlt => hout ⟨hlt, hpolicy⟩)
    rw [State.withKey_of_some (keyIndex?_eq_some hok), keyFault, if_neg hout]
    rfl

/-! ### The handlers -/

theorem exec_sys_of_ignore (nnn : Addr12) {s : State} (h : s.cfg.sysPolicy = .ignore) :
    exec (.sys nnn) s = .next (s.ended (s.pc + 2)) :=
  (exec_next_iff (.sys nnn) s _).2 ⟨h, rfl⟩

theorem exec_sys_of_decodeFault (nnn : Addr12) {s : State} (h : s.cfg.sysPolicy = .decodeFault) :
    exec (.sys nnn) s = .fault (.decodeFault s.site (encode (.sys nnn))) := by
  simp [exec, execSys, h, State.raise]

/-- RET at SP = 0 faults; the site is the state's own PC and word. -/
theorem exec_ret_of_sp_zero {s : State} (hsp : s.sp = 0) : exec .ret s = .fault (.stackUnderflow s.site 0) := by
  simp [exec, execRet, hsp, State.raise]

/-- With its reads allowed a handler is its own fault if it owes one, and completes if it owes none. -/
theorem exec_eq_elim_ownFault {i : Instr} {s : State} (h : s.mayRead (Instr.reads s.cfg i)) :
    ∃ t, exec i s = (ownFault i s).elim (.next t) .fault := by
  cases i with
  | sys nnn =>
    cases hpolicy : s.cfg.sysPolicy with
    | ignore => exact ⟨_, by rw [ownFault, if_pos hpolicy]; exact exec_sys_of_ignore nnn hpolicy⟩
    | decodeFault =>
      have hword : BitVec.ofNat 16 nnn.toNat = encode (.sys nnn) := by
        rw [← toNat_encode_sys, BitVec.ofNat_toNat, BitVec.setWidth_eq]
      refine ⟨s, ?_⟩
      rw [ownFault, if_neg (by rw [hpolicy]; decide), hword]
      exact exec_sys_of_decodeFault nnn hpolicy
  | ret =>
    by_cases hsp : s.sp = 0
    · exact ⟨s, by rw [ownFault, if_pos hsp]; exact exec_ret_of_sp_zero hsp⟩
    · exact ⟨_, by rw [ownFault, if_neg hsp]; exact (exec_next_iff .ret s _).2 ⟨hsp, rfl⟩⟩
  | call nnn =>
    by_cases hsp : s.sp = 15
    · exact ⟨s, by rw [ownFault, if_pos hsp]; exact exec_call_of_sp_eq nnn hsp⟩
    · exact ⟨_, by rw [ownFault, if_neg hsp]; exact exec_call_of_sp_ne nnn hsp⟩
  | drw _ _ n => exact ⟨_, (State.reading_of_mayRead h _).trans (s.memRead_eq_elim n.val _)⟩
  | ldVMem x => exact ⟨_, (State.reading_of_mayRead h _).trans (s.memRead_eq_elim (x.val + 1) _)⟩
  | ldB x => exact ⟨_, (State.reading_of_mayRead h _).trans (s.memWrite_eq_elim (n := 3) rfl (Nat.succ_pos 2) _)⟩
  | ldMemV x =>
    exact ⟨_, (State.reading_of_mayRead h _).trans
      (s.memWrite_eq_elim (s.registers_length _) (Nat.succ_pos x.val) _)⟩
  | skp x => exact ⟨_, (State.reading_of_mayRead h _).trans (s.withKey_eq_elim x _)⟩
  | sknp x => exact ⟨_, (State.reading_of_mayRead h _).trans (s.withKey_eq_elim x _)⟩
  | addI x => exact ⟨_, State.reading_of_mayRead (State.mayRead_swap.1 h) _⟩
  | jpV0 nnn =>
    rw [Instr.reads_jpV0] at h
    exact ⟨_, State.reading_of_mayRead h _⟩
  | cls | jp _ | ldImm _ _ | ldI _ | rnd _ _ => exact ⟨_, rfl⟩
  | ldK x =>
    cases hkey : lowestKey? s.keys with
    | some k => exact ⟨_, exec_ldK_of_lowestKey x hkey⟩
    | none => exact ⟨_, exec_ldK_of_no_key x (lowestKey?_eq_none_iff.1 hkey)⟩
  | _ => exact ⟨_, State.reading_of_mayRead h _⟩

/-- The one account of a handler by the fault table: the fault it owes, or a completed step. -/
theorem exec_eq_elim_owedFault (i : Instr) (s : State) :
    ∃ t, exec i s = (owedFault i s).elim (.next t) .fault := by
  by_cases h : s.mayRead (Instr.reads s.cfg i)
  · have hreads : ¬ readsUnwritten i s = true := fun e => readsUnwritten_iff.1 e h
    rw [owedFault, if_neg hreads]
    exact exec_eq_elim_ownFault h
  · rw [owedFault, if_pos (readsUnwritten_iff.2 h)]
    exact ⟨s, exec_of_not_mayRead h⟩

/-- A handler faults exactly with the fault it owes. -/
theorem exec_fault_iff {i : Instr} {s : State} {f : Fault} : exec i s = .fault f ↔ owedFault i s = some f := by
  obtain ⟨t, h⟩ := exec_eq_elim_owedFault i s
  rw [h]
  cases owedFault i s <;> simp

theorem exec_completes_iff {i : Instr} {s : State} : (∃ t, exec i s = .next t) ↔ owedFault i s = none := by
  obtain ⟨t, h⟩ := exec_eq_elim_owedFault i s
  rw [h]
  cases owedFault i s <;> simp

theorem exec_ne_refused (i : Instr) (s : State) (r : Refusal) : exec i s ≠ .refused r := by
  obtain ⟨t, h⟩ := exec_eq_elim_owedFault i s
  rw [h]
  cases owedFault i s <;> simp

end Sys2Proof.Machine

open Sys2Proof Sys2Proof.Machine

/-- Settles O7, by the one account of a handler by the fault table. -/
theorem handlersFaultExactlyByTheTable : Obligations.HandlersFaultExactlyByTheTable :=
  fun i s => ⟨fun _ => exec_fault_iff, exec_completes_iff, exec_ne_refused i s⟩

/-- Settles O19: such an instruction is one whose reads are not allowed. -/
theorem unwrittenReadsFault : Obligations.UnwrittenReadsFault := by
  intro i s hpolicy hread
  obtain ⟨r, hr, hunwritten⟩ := hread
  refine exec_of_not_mayRead fun hmay => ?_
  obtain hzero | hall := hmay
  · rw [hpolicy] at hzero
    cases hzero
  · rw [hall r hr] at hunwritten
    cases hunwritten

end

section
/-! The step and its faults: what a step is at each PC, what a fault of it records, and that it comes again
(40_engine.md R101, R102; 60_exceptions.md R209, R210, R223). -/

namespace Sys2Proof.Machine

/-! ### What a step is -/

theorem step_of_fetch_none {s : State} (h : s.fetch? = none) :
    step s = .fault (.outOfBoundsMemoryAccess s.site s.pc.toNat 2) := by
  simp [step, h, State.raise]

theorem step_of_decodeFault {s : State} {w v : Word} (h : s.fetch? = some w) (hd : decode s.cfg w = .decodeFault v) :
    step s = .fault (.decodeFault s.site v) := by
  simp [step, h, hd, State.raise]

theorem step_of_op {s : State} {w : Word} {i : Instr} (h : s.fetch? = some w) (hd : decode s.cfg w = .op i) :
    step s = exec i s := by
  simp [step, h, hd]

/-- The three ways a step faults: the fetch, the decoder, and the fault the handler owes. -/
theorem step_fault_iff {s : State} {f : Fault} :
    step s = .fault f ↔
      (s.fetch? = none ∧ f = .outOfBoundsMemoryAccess s.site s.pc.toNat 2) ∨
      ∃ w, s.fetch? = some w ∧
        ((∃ v, decode s.cfg w = .decodeFault v ∧ f = .decodeFault s.site v) ∨
          ∃ i, decode s.cfg w = .op i ∧ owedFault i s = some f) := by
  cases hw : s.fetch? with
  | none => simp [step_of_fetch_none hw, eq_comm]
  | some w =>
    cases hd : decode s.cfg w with
    | decodeFault v => simp [step_of_decodeFault hw hd, hd, eq_comm]
    | op i => simp [step_of_op hw hd, hd, exec_fault_iff]

/-- A fetched word is the two bytes at PC, high byte first. -/
theorem fetch?_of_toNat {s : State} (hpc : s.pc.toNat ≤ 0xFFE) {w : Word}
    (hw : w.toNat = (s.byte s.pc.toNat).toNat * 256 + (s.byte (s.pc.toNat + 1)).toNat) : s.fetch? = some w := by
  rw [State.fetch?_of_le hpc, Option.some_inj]
  exact BitVec.eq_of_toNat_eq ((toNat_wordOfBytes _ _).trans hw.symm)

/-! ### What a fault records -/

theorem rangeFault_site {s : State} {n : Nat} {f : Fault} (h : rangeFault s n = some f) : f.site = s.site := by
  obtain ⟨-, ⟨⟩⟩ := Option.ite_none_right_eq_some.1 h
  rfl

theorem storeFault_site {s : State} {n : Nat} {f : Fault} (h : storeFault s n = some f) : f.site = s.site := by
  cases hr : rangeFault s n with
  | some g =>
    simp only [storeFault, hr, Option.some_inj] at h
    exact h ▸ rangeFault_site hr
  | none =>
    simp only [storeFault, hr] at h
    obtain ⟨-, ⟨⟩⟩ := Option.ite_none_right_eq_some.1 h
    rfl

theorem keyFault_site {s : State} {x : RegIdx} {f : Fault} (h : keyFault s x = some f) : f.site = s.site := by
  obtain ⟨-, ⟨⟩⟩ := Option.ite_none_right_eq_some.1 h
  rfl

theorem ownFault_site {i : Instr} {s : State} {f : Fault} (h : ownFault i s = some f) : f.site = s.site := by
  cases i with
  | sys _ =>
    obtain ⟨-, ⟨⟩⟩ := Option.ite_none_left_eq_some.1 h
    rfl
  | ret | call _ =>
    obtain ⟨-, ⟨⟩⟩ := Option.ite_none_right_eq_some.1 h
    rfl
  | drw _ _ _ | ldVMem _ => exact rangeFault_site h
  | ldB _ | ldMemV _ => exact storeFault_site h
  | skp _ | sknp _ => exact keyFault_site h
  | _ => cases h

/-- The fault a handler owes records the site of the state it runs on. -/
theorem owedFault_site {i : Instr} {s : State} {f : Fault} (h : owedFault i s = some f) : f.site = s.site := by
  by_cases hread : readsUnwritten i s = true
  · rw [owedFault, if_pos hread, Option.some_inj] at h
    exact h ▸ rfl
  · rw [owedFault, if_neg hread] at h
    exact ownFault_site h

/-- Every fault of a step records the site of the state it started in. -/
theorem step_fault_site {s : State} {f : Fault} (h : step s = .fault f) : f.site = s.site := by
  obtain ⟨-, rfl⟩ | ⟨w, -, ⟨v, -, rfl⟩ | ⟨i, -, howed⟩⟩ := step_fault_iff.1 h
  · rfl
  · rfl
  · exact owedFault_site howed

/-! ### A fault comes again -/

/-- No fault depends on the timers or the keys, the fields the host changes: none of the three ways reads them. -/
theorem step_fault_withHostFields {s : State} {f : Fault} (h : step s = .fault f) (d e : Byte) (k : Vector Bool 16) :
    step { s with dt := d, st := e, keys := k } = .fault f := by
  rw [step_fault_iff] at h ⊢
  exact h

/-- What the host leaves of a state it did not change: the keys are cleared under KEY_MODEL = edge (R223). -/
theorem State.afterStep_eq (s : State) :
    s.afterStep = { s with keys := if s.cfg.keyModel = .edge then Vector.replicate 16 false else s.keys } := by
  cases h : s.cfg.keyModel <;> simp [State.afterStep, State.clearKeys, h]

theorem perform_step_of_fault {s : State} {f : Fault} (h : step s = .fault f) :
    perform .step s = (.fault f, s.afterStep) := by
  simp [perform, h, Reply.ofStep]

theorem perform_step_of_next {s t : State} (h : step s = .next t) :
    perform .step s = (.outcome t.outcome, t.afterStep) := by
  simp [perform, h, Reply.ofStep]

/-- The host's duty after a step changes keys alone, and those under KEY_MODEL = edge. -/
theorem State.afterStep_frame (s : State) :
    Unchanged (fun c => s.cfg.keyModel = .edge ∧ ∃ k, c = .key k) s s.afterStep := by
  intro c hc
  cases hm : s.cfg.keyModel with
  | level =>
    rw [State.afterStep, hm]
    exact Unchanged.refl (fun _ => False) s c id
  | edge =>
    rw [State.afterStep, hm]
    cases c with
    | key k => exact absurd ⟨hm, k, rfl⟩ hc
    | _ => simp [Component.same, State.byte, State.getV]

@[simp] theorem State.afterStep_outcome (s : State) : s.afterStep.outcome = s.outcome := by
  rw [State.afterStep_eq]

@[simp] theorem State.afterStep_written (s : State) : s.afterStep.written = s.written := by
  rw [State.afterStep_eq]

/-- The keys after the host's duty: false under edge, as they were under level. -/
theorem State.afterStep_key (s : State) (k : Fin 16) :
    s.afterStep.keys[k] = if s.cfg.keyModel = .edge then false else s.keys[k] := by
  rw [State.afterStep_eq]
  split <;> simp

/-- The keys after a performed step, whether or not it faults: a step changes neither the keys nor the key model. -/
theorem perform_step_key (s : State) (k : Fin 16) :
    (perform .step s).2.keys[k] = if s.cfg.keyModel = .edge then false else s.keys[k] := by
  obtain ⟨t, ht, e⟩ | e := perform_step_state s
  · rw [e, State.afterStep_key, step_cfg ht, step_keys ht]
  · rw [e, State.afterStep_key]

end Sys2Proof.Machine

open Sys2Proof Sys2Proof.Machine

/-- Settles O6: the fetch by the range check and the two bytes at PC, then the decoder's answer. -/
theorem stepRunsTheDecodedInstruction : Obligations.StepRunsTheDecodedInstruction := by
  intro s
  constructor
  · intro hpc
    have hnone := State.fetch?_of_lt hpc
    rw [step_of_fetch_none hnone, State.site, hnone]
  · intro hpc w hw
    have hfetch := fetch?_of_toNat hpc hw
    refine ⟨fun v hd => ?_, fun i hd => step_of_op hfetch hd⟩
    rw [step_of_decodeFault hfetch hd, State.site, hfetch]

/-- Settles O8: a fault records the site of the state, which is its PC and what it fetches. -/
theorem faultsRecordPcAndWord : Obligations.FaultsRecordPcAndWord := by
  intro s f h
  rw [step_fault_site h]
  exact ⟨rfl, State.fetch?_of_lt, fun hpc => ⟨_, State.fetch?_of_le hpc, toNat_wordOfBytes _ _⟩⟩

/-- Settles O50: a performed step is the core's step and then the host's duty, which changes keys alone. -/
theorem keyModelActsAfterTheStep : Obligations.KeyModelActsAfterTheStep := by
  intro s u r hp
  have hu : u = (perform .step s).2 := by rw [hp]
  refine ⟨fun hedge k => ?_, fun hlevel k => ?_, fun t ht => ?_, fun f hf => ?_⟩
  · rw [hu, perform_step_key, if_pos hedge]
  · rw [hu, perform_step_key, if_neg (by rw [hlevel]; decide)]
  · obtain ⟨rfl, rfl⟩ := Prod.mk.inj (hp.symm.trans (perform_step_of_next ht))
    rw [← step_cfg ht]
    exact ⟨rfl, t.afterStep_outcome, t.afterStep_written, t.afterStep_frame⟩
  · obtain ⟨rfl, rfl⟩ := Prod.mk.inj (hp.symm.trans (perform_step_of_fault hf))
    exact ⟨rfl, s.afterStep_outcome, s.afterStep_written, s.afterStep_frame⟩

/-- Settles O51: a tick, a key change and the host's duty after the faulting step write timers and keys alone, and
no fault depends on those. -/
theorem faultsRepeat : Obligations.FaultsRepeat := by
  intro s f h
  refine ⟨step_fault_withHostFields h _ _ _, fun k b => step_fault_withHostFields h _ _ _, ?_⟩
  rw [perform_step_of_fault h, State.afterStep_eq]
  exact step_fault_withHostFields h _ _ _

end

section
/-! RND alone has to do with the random byte (40_engine.md R110; 60_exceptions.md R225): every operation the other
instructions are made of commutes with a change of the request count. -/

namespace Sys2Proof.Machine

/-- The state with another count of random requests. -/
def State.withDraws (s : State) (d : Nat) : State := { s with draws := d }

theorem State.setWithFlag_withDraws (s : State) (d : Nat) (x : RegIdx) (r f : Byte) :
    (s.withDraws d).setWithFlag x r f = (s.setWithFlag x r f).withDraws d := by
  cases h : s.cfg.vfOrder <;> simp [State.withDraws, State.setWithFlag, h, State.setV]

theorem State.setLogic_withDraws (s : State) (d : Nat) (x : RegIdx) (r : Byte) :
    (s.withDraws d).setLogic x r = (s.setLogic x r).withDraws d := by
  cases h : s.cfg.logicVfReset with
  | false => simp [State.withDraws, State.setLogic, h, State.setV]
  | true =>
    have h' : (s.withDraws d).cfg.logicVfReset = true := h
    rw [State.setLogic, State.setLogic, if_pos h, if_pos h', State.setWithFlag_withDraws]

theorem State.stepIndex_withDraws (s : State) (d : Nat) (x : RegIdx) :
    (s.withDraws d).stepIndex x = (s.stepIndex x).withDraws d := by
  cases h : s.cfg.loadStoreIncrement <;> simp [State.withDraws, State.stepIndex, h, State.setIndex]

theorem State.setBytes_withDraws (s : State) (d a : Nat) (bs : List Byte) :
    (s.withDraws d).setBytes a bs = (s.setBytes a bs).withDraws d := by
  induction bs generalizing s a with
  | nil => rfl
  | cons b bs ih => exact ih (s.setByte a b) (a + 1)

theorem State.setRegisters_withDraws (s : State) (d k : Nat) (bs : List Byte) :
    (s.withDraws d).setRegisters k bs = (s.setRegisters k bs).withDraws d := by
  induction bs generalizing s k with
  | nil => rfl
  | cons b bs ih => exact ih (s.setV (Fin.ofNat 16 k) b) (k + 1)

/-- A completed instruction other than RND does the same from another request count. -/
theorem Effect.withDraws {i : Instr} {s t : State} (h : Effect i s t) (hne : ∀ x kk, i ≠ .rnd x kk) (d : Nat) :
    Effect i (s.withDraws d) (t.withDraws d) := by
  cases i with
  | rnd x kk => exact absurd rfl (hne x kk)
  | cls | jp _ | ldImm _ _ | ldI _ =>
    subst h
    rfl
  | ldK x =>
    obtain ⟨k, hk, rfl⟩ | ⟨hnone, rfl⟩ := h
    · exact Or.inl ⟨k, hk, rfl⟩
    · exact Or.inr ⟨hnone, rfl⟩
  | skp _ | sknp _ =>
    obtain ⟨hread, k, hk, rfl⟩ := h
    exact ⟨hread, k, hk, rfl⟩
  | drw _ _ _ =>
    obtain ⟨hread, hrange, rfl⟩ := h
    exact ⟨hread, hrange, rfl⟩
  | ldVMem _ =>
    obtain ⟨hread, hrange, rfl⟩ := h
    refine ⟨hread, hrange, ?_⟩
    rw [State.setRegisters_withDraws, State.stepIndex_withDraws]
    rfl
  | ldB _ =>
    obtain ⟨hread, hrange, hfont, rfl⟩ := h
    refine ⟨hread, hrange, hfont, ?_⟩
    rw [State.setBytes_withDraws]
    rfl
  | ldMemV _ =>
    obtain ⟨hread, hrange, hfont, rfl⟩ := h
    refine ⟨hread, hrange, hfont, ?_⟩
    rw [State.setBytes_withDraws, State.stepIndex_withDraws]
    rfl
  | or _ _ | and _ _ | xor _ _ =>
    obtain ⟨hread, rfl⟩ := h
    refine ⟨hread, ?_⟩
    rw [State.setLogic_withDraws]
    rfl
  | addReg _ _ | sub _ _ | subn _ _ | shr _ _ | shl _ _ =>
    obtain ⟨hread, rfl⟩ := h
    refine ⟨hread, ?_⟩
    rw [State.setWithFlag_withDraws]
    rfl
  | _ =>
    obtain ⟨hguard, rfl⟩ := h
    exact ⟨hguard, rfl⟩

/-- No fault depends on the request count. -/
theorem owedFault_withDraws (i : Instr) (s : State) (d : Nat) : owedFault i (s.withDraws d) = owedFault i s := rfl

/-- Only RND changes the request count. -/
theorem Instr.changes_draws {i : Instr} {s : State} : Instr.changes i s .draws ↔ ∃ x kk, i = .rnd x kk := by
  cases i <;> simp [Instr.changes]

end Sys2Proof.Machine

open Sys2Proof Sys2Proof.Machine

/-- Settles O11: from another request count a completed instruction completes alike and a fault is the same fault;
the count is among the changes of RND alone. -/
theorem onlyRndUsesTheRandomCapability : Obligations.OnlyRndUsesTheRandomCapability := by
  constructor
  · intro i s d hne
    cases h : exec i s with
    | next t => exact (exec_next_iff i _ _).2 (((exec_next_iff i s t).1 h).withDraws hne d)
    | fault f => exact exec_fault_iff.2 ((owedFault_withDraws i s d).trans (exec_fault_iff.1 h))
    | refused r => exact absurd h (exec_ne_refused i s r)
  · intro i s t h hne
    refine exec_unchanged h .draws fun hc => ?_
    obtain ⟨x, kk, e⟩ := Instr.changes_draws.1 hc
    exact hne x kk e

end

section
/-! The marks of INIT_REG_POLICY after a completed instruction (10_state.md R39; log entry 4). -/

namespace Sys2Proof.Machine

/-- The write of OR, AND and XOR marks the destination, and VF under LOGIC_VF_RESET. -/
theorem State.has_setLogic (s : State) (x : RegIdx) (b : Byte) (r : Reg) :
    (s.setLogic x b).written.has r = true ↔
      s.written.has r = true ∨ r ∈ (if s.cfg.logicVfReset then [Reg.v x, .v 15] else [.v x]) := by
  cases h : s.cfg.logicVfReset <;> simp [State.setLogic, h, State.has_setWithFlag]

/-- The transfers mark I where they move it. -/
theorem State.has_stepIndex (s : State) (x : RegIdx) (r : Reg) :
    (s.stepIndex x).written.has r = true ↔
      s.written.has r = true ∨ r ∈ (if s.cfg.loadStoreIncrement = .none then [] else [Reg.index]) := by
  cases h : s.cfg.loadStoreIncrement <;> simp [State.stepIndex, h]

/-- A list loaded from V0 on marks as many registers. -/
theorem State.has_setRegisters_zero (s : State) (bs : List Byte) (r : Reg) :
    (s.setRegisters 0 bs).written.has r = true ↔
      s.written.has r = true ∨ r ∈ (List.range bs.length).map fun k => Reg.v (Fin.ofNat 16 k) := by
  simp only [State.has_setRegisters, Bool.or_eq_true, List.any_eq_true, decide_eq_true_eq, List.mem_map,
    Nat.zero_add, @eq_comm _ r]

/-- A completed instruction marks the registers it writes and no other. -/
theorem exec_written {i : Instr} {s t : State} (h : exec i s = .next t) (r : Reg) :
    t.written.has r = true ↔ s.written.has r = true ∨ r ∈ Instr.writes s.cfg s i := by
  have h := (exec_next_iff i s t).1 h
  cases i with
  | jp _ | cls | ldImm _ _ | ldI _ | rnd _ _ =>
    subst h
    simp [Instr.writes]
  | ldK x =>
    obtain ⟨k, hk, rfl⟩ | ⟨hnone, rfl⟩ := h
    · have hpressed : ∃ k : Fin 16, s.keys[k] = true := ⟨k, pressed_of_lowestKey? hk⟩
      rw [Instr.writes, if_pos hpressed]
      simp
    · have hreleased : ¬ ∃ k : Fin 16, s.keys[k] = true := by
        simpa using lowestKey?_eq_none_iff.1 hnone
      rw [Instr.writes, if_neg hreleased]
      simp
  | skp _ | sknp _ =>
    obtain ⟨-, k, -, rfl⟩ := h
    simp [Instr.writes]
  | drw _ _ _ =>
    obtain ⟨-, -, rfl⟩ := h
    simp [Instr.writes]
  | ldVMem x =>
    obtain ⟨-, -, rfl⟩ := h
    rw [State.ended_written, State.has_stepIndex, State.has_setRegisters_zero, State.setRegisters_cfg,
      State.bytes_length, Instr.writes, List.mem_append, or_assoc]
  | ldB _ =>
    obtain ⟨-, -, -, rfl⟩ := h
    simp [Instr.writes]
  | ldMemV _ =>
    obtain ⟨-, -, -, rfl⟩ := h
    rw [State.ended_written, State.has_stepIndex, State.setBytes_written, State.setBytes_cfg, Instr.writes]
  | or _ _ | and _ _ | xor _ _ =>
    obtain ⟨-, rfl⟩ := h
    exact s.has_setLogic _ _ r
  | addReg _ _ | sub _ _ | subn _ _ | shr _ _ | shl _ _ =>
    obtain ⟨-, rfl⟩ := h
    simp [Instr.writes, State.has_setWithFlag]
  | _ =>
    obtain ⟨-, rfl⟩ := h
    simp [Instr.writes]

end Sys2Proof.Machine

open Sys2Proof Sys2Proof.Machine

/-- Settles O18, by `exec_written`. -/
theorem writtenRegistersAreMarked : Obligations.WrittenRegistersAreMarked :=
  fun _ _ _ r h => exec_written h r

end

section
/-! The decoder on every word (30_encoding.md R86 to R95): a word is its fields, so a decoded instruction encodes
back to it, a row of the opcode map decodes by its mask, and what no row takes is illegal. -/

namespace Sys2Proof

/-! ### A word is its fields -/

theorem encodeNNN_fields {a : BitVec 4} {w : Word} (ha : fieldA w = a) : encodeNNN a (fieldNNN w) = w := by
  subst ha
  ext i h
  simp only [encodeNNN, fieldA, fieldNNN, BitVec.getElem_or, BitVec.getElem_shiftLeft, BitVec.getElem_setWidth,
    BitVec.getLsbD_extractLsb']
  grind

theorem encodeXKK_fields {a : BitVec 4} {w : Word} {kk : Byte} (ha : fieldA w = a) (hkk : fieldKK w = kk) :
    encodeXKK a (fieldX w) kk = w := by
  have hx : nibble (fieldX w) = w.extractLsb' 8 4 := rfl
  subst ha hkk
  ext i h
  simp only [encodeXKK, fieldA, fieldKK, hx, BitVec.getElem_or, BitVec.getElem_shiftLeft, BitVec.getElem_setWidth,
    BitVec.getLsbD_extractLsb']
  grind

theorem encodeXYN_fields {a n : BitVec 4} {w : Word} (ha : fieldA w = a) (hn : fieldN w = n) :
    encodeXYN a (fieldX w) (fieldY w) n = w := by
  have hx : nibble (fieldX w) = w.extractLsb' 8 4 := rfl
  have hy : nibble (fieldY w) = w.extractLsb' 4 4 := rfl
  subst ha hn
  ext i h
  simp only [encodeXYN, fieldA, fieldN, hx, hy, BitVec.getElem_or, BitVec.getElem_shiftLeft, BitVec.getElem_setWidth,
    BitVec.getLsbD_extractLsb']
  grind

/-- With its lowest nibble taken as 0, a word's fields encode to the word with that nibble cleared. -/
theorem encodeXY0_fields {a : BitVec 4} {w : Word} (ha : fieldA w = a) :
    encodeXYN a (fieldX w) (fieldY w) 0x0#4 = w &&& 0xFFF0#16 := by
  have hx : nibble (fieldX w) = w.extractLsb' 8 4 := rfl
  have hy : nibble (fieldY w) = w.extractLsb' 4 4 := rfl
  subst ha
  ext i h
  simp only [encodeXYN, fieldA, hx, hy, BitVec.getElem_or, BitVec.getElem_shiftLeft, BitVec.getElem_setWidth,
    BitVec.getLsbD_extractLsb']
  interval_cases i <;> simp

theorem toNat_fieldA (w : Word) : (fieldA w).toNat = w.toNat / 0x1000 := by
  have := w.isLt
  simp only [fieldA, BitVec.extractLsb'_toNat, Nat.shiftRight_eq_div_pow]
  omega

theorem toNat_fieldN (w : Word) : (fieldN w).toNat = w.toNat % 0x10 := by
  simp [fieldN, BitVec.extractLsb'_toNat]

theorem toNat_fieldKK (w : Word) : (fieldKK w).toNat = w.toNat % 0x100 := by
  simp [fieldKK, BitVec.extractLsb'_toNat]

/-! ### A decoded instruction encodes to its word -/

theorem encode_of_decodeFamily0 {cfg : Config} {w : Word} {i : Instr} (ha : fieldA w = 0x0#4)
    (h : decodeFamily0 cfg w = .op i) : encode i = w := by
  unfold decodeFamily0 at h
  split_ifs at h with hcls hret
  · cases h
    exact hcls.symm
  · cases h
    exact hret.symm
  · cases h
    exact encodeNNN_fields ha

theorem encode_of_decodeFamily8 {w : Word} {i : Instr} (ha : fieldA w = 0x8#4) (h : decodeFamily8 w = .op i) :
    encode i = w := by
  unfold decodeFamily8 at h
  split at h <;> cases h
  all_goals exact encodeXYN_fields ha (by assumption)

theorem encode_of_decodeFamilyE {w : Word} {i : Instr} (ha : fieldA w = 0xE#4) (h : decodeFamilyE w = .op i) :
    encode i = w := by
  unfold decodeFamilyE at h
  split at h <;> cases h
  all_goals exact encodeXKK_fields ha (by assumption)

theorem encode_of_decodeFamilyF {w : Word} {i : Instr} (ha : fieldA w = 0xF#4) (h : decodeFamilyF w = .op i) :
    encode i = w := by
  unfold decodeFamilyF at h
  split at h <;> cases h
  all_goals exact encodeXKK_fields ha (by assumption)

/-- Families 5 and 9: the instruction is the register skip, and its nibble is 0 unless it was not examined. -/
theorem decodeFamily59_eq_op {cfg : Config} {w : Word} {i j : Instr} (h : decodeFamily59 cfg w j = .op i) :
    i = j ∧ (fieldN w = 0x0#4 ∨ cfg.strict59 = false) := by
  unfold decodeFamily59 at h
  split_ifs at h with hc
  cases h
  refine ⟨rfl, ?_⟩
  cases hs : cfg.strict59 with
  | false => exact Or.inr rfl
  | true => exact Or.inl (by simpa [hs] using hc)

/-- The one family whose encoding may differ from the word: a register skip with an unexamined nibble (R89). -/
def UnexaminedSkip (cfg : Config) (w : Word) (i : Instr) : Prop :=
  cfg.strict59 = false ∧
    (fieldA w = 0x5#4 ∧ i = .seReg (fieldX w) (fieldY w) ∨ fieldA w = 0x9#4 ∧ i = .sneReg (fieldX w) (fieldY w))

/-- What the decoder leaves to the last arm is family 0xF. -/
theorem eq_F_of_ne (a : BitVec 4) : a ≠ 0x0#4 → a ≠ 0x1#4 → a ≠ 0x2#4 → a ≠ 0x3#4 → a ≠ 0x4#4 → a ≠ 0x5#4 →
    a ≠ 0x6#4 → a ≠ 0x7#4 → a ≠ 0x8#4 → a ≠ 0x9#4 → a ≠ 0xA#4 → a ≠ 0xB#4 → a ≠ 0xC#4 → a ≠ 0xD#4 → a ≠ 0xE#4 →
    a = 0xF#4 := by
  intros
  bv_omega

/-- The arms `h_1` to `h_16` of the decoder are the families 0x0 to 0xF in order, each with its format of R83. -/
theorem encode_of_decode {cfg : Config} {w : Word} {i : Instr} (h : decode cfg w = .op i) :
    encode i = w ∨ UnexaminedSkip cfg w i := by
  unfold decode at h
  split at h
  case h_1 ha => exact Or.inl (encode_of_decodeFamily0 ha h)
  case h_2 ha | h_3 ha | h_11 ha | h_12 ha =>
    cases h
    exact Or.inl (encodeNNN_fields ha)
  case h_4 ha | h_5 ha | h_7 ha | h_8 ha | h_13 ha =>
    cases h
    exact Or.inl (encodeXKK_fields ha rfl)
  case h_14 ha =>
    cases h
    exact Or.inl (encodeXYN_fields ha rfl)
  case h_6 ha =>
    obtain ⟨rfl, hn | hs⟩ := decodeFamily59_eq_op h
    · exact Or.inl (encodeXYN_fields ha hn)
    · exact Or.inr ⟨hs, Or.inl ⟨ha, rfl⟩⟩
  case h_10 ha =>
    obtain ⟨rfl, hn | hs⟩ := decodeFamily59_eq_op h
    · exact Or.inl (encodeXYN_fields ha hn)
    · exact Or.inr ⟨hs, Or.inr ⟨ha, rfl⟩⟩
  case h_9 ha => exact Or.inl (encode_of_decodeFamily8 ha h)
  case h_15 ha => exact Or.inl (encode_of_decodeFamilyE ha h)
  case h_16 =>
    have ha : fieldA w = 0xF#4 := by apply eq_F_of_ne <;> assumption
    exact Or.inl (encode_of_decodeFamilyF ha h)

/-- What a word decodes to is well formed. -/
theorem wellFormed_of_decode {cfg : Config} {w : Word} {i : Instr} (h : decode cfg w = .op i) :
    wellFormed cfg i = true := by
  obtain henc | ⟨-, ⟨-, rfl⟩ | ⟨-, rfl⟩⟩ := encode_of_decode h
  · exact (decode_encode_iff cfg i).1 (by rwa [henc])
  · rfl
  · rfl

/-! ### The words that decode to nothing -/

/-- An answer of the decoder that is a fault, under a condition that holds. -/
theorem fault_iff_of_true {w v : Word} {p : Prop} (hp : p) : Decoded.decodeFault w = .decodeFault v ↔ v = w ∧ p := by
  simp [hp, eq_comm]

/-- An answer of the decoder that is an instruction, under a condition that fails. -/
theorem fault_iff_of_false {w v : Word} {i : Instr} {p : Prop} (hp : ¬ p) :
    Decoded.op i = .decodeFault v ↔ v = w ∧ p := by
  simp [hp]

theorem decodeFamily0_eq_fault_iff {cfg : Config} {w v : Word} :
    decodeFamily0 cfg w = .decodeFault v ↔
      v = w ∧ cfg.sysPolicy = .decodeFault ∧ w.toNat ≠ 0x00E0 ∧ w.toNat ≠ 0x00EE := by
  by_cases hcls : w = 0x00E0#16
  · rw [decodeFamily0, if_pos hcls]
    exact fault_iff_of_false fun h => h.2.1 (congrArg BitVec.toNat hcls)
  by_cases hret : w = 0x00EE#16
  · rw [decodeFamily0, if_neg hcls, if_pos hret]
    exact fault_iff_of_false fun h => h.2.2 (congrArg BitVec.toNat hret)
  rw [decodeFamily0, if_neg hcls, if_neg hret]
  cases cfg.sysPolicy with
  | ignore => exact fault_iff_of_false fun h => nomatch h.1
  | decodeFault =>
    exact fault_iff_of_true ⟨rfl, fun h => hcls (BitVec.eq_of_toNat_eq h), fun h => hret (BitVec.eq_of_toNat_eq h)⟩

theorem decodeFamily8_eq_fault_iff {w v : Word} :
    decodeFamily8 w = .decodeFault v ↔ v = w ∧ (fieldN w).toNat ∈ [0x8, 0x9, 0xA, 0xB, 0xC, 0xD, 0xF] := by
  unfold decodeFamily8
  generalize fieldN w = n
  split
  case h_10 =>
    refine fault_iff_of_true ?_
    decide +revert
  all_goals exact fault_iff_of_false (by decide)

theorem decodeFamilyE_eq_fault_iff {w v : Word} :
    decodeFamilyE w = .decodeFault v ↔ v = w ∧ (fieldKK w).toNat ∉ [0x9E, 0xA1] := by
  unfold decodeFamilyE
  generalize fieldKK w = kk
  split
  case h_3 => exact fault_iff_of_true (by simp_all [BitVec.toNat_eq])
  all_goals exact fault_iff_of_false (by decide)

theorem decodeFamilyF_eq_fault_iff {w v : Word} :
    decodeFamilyF w = .decodeFault v ↔
      v = w ∧ (fieldKK w).toNat ∉ [0x07, 0x0A, 0x15, 0x18, 0x1E, 0x29, 0x33, 0x55, 0x65] := by
  unfold decodeFamilyF
  generalize fieldKK w = kk
  split
  case h_10 => exact fault_iff_of_true (by simp_all [BitVec.toNat_eq])
  all_goals exact fault_iff_of_false (by decide)

theorem decodeFamily59_eq_fault_iff {cfg : Config} {w v : Word} {i : Instr} :
    decodeFamily59 cfg w i = .decodeFault v ↔ v = w ∧ cfg.strict59 = true ∧ (fieldN w).toNat ≠ 0 := by
  have hn : fieldN w ≠ 0x0#4 ↔ (fieldN w).toNat ≠ 0 := BitVec.toNat_ne_iff_ne.symm
  by_cases h : (cfg.strict59 && fieldN w != 0x0#4) = true
  · rw [decodeFamily59, if_pos h]
    exact fault_iff_of_true (by simpa [hn] using h)
  · rw [decodeFamily59, if_neg h]
    exact fault_iff_of_false (by simpa [← hn] using h)

/-- The classes (a) to (e) of R93, by the family, the lowest nibble and the trailing byte. -/
def IllegalWord (cfg : Config) (w : Word) : Prop :=
  (cfg.sysPolicy = .decodeFault ∧ (fieldA w).toNat = 0 ∧ w.toNat ≠ 0x00E0 ∧ w.toNat ≠ 0x00EE) ∨
  ((fieldA w).toNat = 8 ∧ (fieldN w).toNat ∈ [0x8, 0x9, 0xA, 0xB, 0xC, 0xD, 0xF]) ∨
  ((fieldA w).toNat = 0xE ∧ (fieldKK w).toNat ∉ [0x9E, 0xA1]) ∨
  ((fieldA w).toNat = 0xF ∧ (fieldKK w).toNat ∉ [0x07, 0x0A, 0x15, 0x18, 0x1E, 0x29, 0x33, 0x55, 0x65]) ∨
  (cfg.strict59 = true ∧ ((fieldA w).toNat = 5 ∨ (fieldA w).toNat = 9) ∧ (fieldN w).toNat ≠ 0)

theorem decode_eq_fault_iff {cfg : Config} {w v : Word} :
    decode cfg w = .decodeFault v ↔ v = w ∧ IllegalWord cfg w := by
  unfold decode
  split
  case h_1 ha => simp [IllegalWord, ha, decodeFamily0_eq_fault_iff]
  case h_6 ha | h_10 ha => simp [IllegalWord, ha, decodeFamily59_eq_fault_iff]
  case h_9 ha => simp [IllegalWord, ha, decodeFamily8_eq_fault_iff]
  case h_15 ha => simp [IllegalWord, ha, decodeFamilyE_eq_fault_iff]
  case h_16 =>
    have ha : fieldA w = 0xF#4 := by apply eq_F_of_ne <;> assumption
    simp [IllegalWord, ha, decodeFamilyF_eq_fault_iff]
  all_goals simp_all [IllegalWord]

end Sys2Proof

open Sys2Proof

/-- Settles O3: a word is its fields, family by family; the exception is a skip whose nibble was not examined. -/
theorem encodeInvertsDecode : Obligations.EncodeInvertsDecode := by
  intro cfg w i h
  refine ⟨wellFormed_of_decode h, ?_⟩
  rw [← toNat_fieldA]
  obtain henc | ⟨hs, ⟨ha, rfl⟩ | ⟨ha, rfl⟩⟩ := encode_of_decode h
  · exact Or.inl henc
  · exact Or.inr ⟨Or.inl (by rw [ha]; rfl), hs, encodeXY0_fields ha⟩
  · exact Or.inr ⟨Or.inr (by rw [ha]; rfl), hs, encodeXY0_fields ha⟩

/-- Settles O4, by `decode_eq_fault_iff`, its fields written as quotients and remainders. -/
theorem illegalWordsAreTheListedClasses : Obligations.IllegalWordsAreTheListedClasses := by
  intro cfg w v
  rw [decode_eq_fault_iff, IllegalWord, toNat_fieldA, toNat_fieldN, toNat_fieldKK]

end

section
/-! Each row of the opcode map decodes by its own mask (30_encoding.md R86, R87). -/

namespace Sys2Proof

@[simp] theorem fieldN_and (v w : Word) : fieldN (v &&& w) = fieldN v &&& fieldN w := BitVec.extractLsb'_and

@[simp] theorem fieldKK_and (v w : Word) : fieldKK (v &&& w) = fieldKK v &&& fieldKK w := BitVec.extractLsb'_and

/-- A mask that is all ones on the leading nibble shows it. -/
theorem fieldA_of_masked {w m v : Word} (h : w &&& m = v) (hm : fieldA m = BitVec.allOnes 4) :
    fieldA w = fieldA v := by
  rw [← h, fieldA_and, hm, BitVec.and_allOnes]

theorem fieldN_of_masked {w m v : Word} (h : w &&& m = v) (hm : fieldN m = BitVec.allOnes 4) :
    fieldN w = fieldN v := by
  rw [← h, fieldN_and, hm, BitVec.and_allOnes]

theorem fieldKK_of_masked {w m v : Word} (h : w &&& m = v) (hm : fieldKK m = BitVec.allOnes 8) :
    fieldKK w = fieldKK v := by
  rw [← h, fieldKK_and, hm, BitVec.and_allOnes]

/-- In every configuration a word that passes the row's test decodes to the row's instruction. -/
def RowDecodes (row : OpcodeRow) : Prop :=
  ∀ (cfg : Config) (w : Word), w &&& row.1 = row.2.1 → decode cfg w = .op (rowInstr row w)

/-- A row decodes if every word that passes its test is the encoding of what the row reads from it. -/
theorem rowDecodes_of_encode {row : OpcodeRow} (hsys : ∀ x y n kk nnn m, row.2.2 x y n kk nnn ≠ .sys m)
    (henc : ∀ w : Word, w &&& row.1 = row.2.1 →
      encode (row.2.2 (fieldX w) (fieldY w) (fieldN w).toFin (fieldKK w) (fieldNNN w)) = w) : RowDecodes row := by
  intro cfg w h
  rw [rowInstr_eq_fields]
  have hdec := decode_encode cfg (hsys (fieldX w) (fieldY w) (fieldN w).toFin (fieldKK w) (fieldNNN w))
  rwa [henc w h] at hdec

/-! ### One lemma per format of R83 -/

theorem rowDecodes_NNN (a : BitVec 4) (f : Addr12 → Instr)
    (hf : ∀ nnn, encode (f nnn) = encodeNNN a nnn := by intros; rfl) (hsys : ∀ nnn m, f nnn ≠ .sys m := by nofun) :
    RowDecodes (0xF000, encodeNNN a 0, fun _ _ _ _ nnn => f nnn) :=
  rowDecodes_of_encode (fun _ _ _ _ => hsys) fun _ h =>
    have ha := (fieldA_of_masked (m := 0xF000) h rfl).trans (fieldA_encodeNNN a 0)
    (hf _).trans (encodeNNN_fields ha)

theorem rowDecodes_XKK (a : BitVec 4) (f : RegIdx → Byte → Instr)
    (hf : ∀ x kk, encode (f x kk) = encodeXKK a x kk := by intros; rfl)
    (hsys : ∀ x kk m, f x kk ≠ .sys m := by nofun) : RowDecodes (0xF000, encodeXKK a 0 0, fun x _ _ kk _ => f x kk) :=
  rowDecodes_of_encode (fun x _ _ kk _ => hsys x kk) fun _ h =>
    have ha := (fieldA_of_masked (m := 0xF000) h rfl).trans (fieldA_encodeXKK a 0 0)
    (hf _ _).trans (encodeXKK_fields ha rfl)

/-- Format XYN where the lowest nibble is an operand. -/
theorem rowDecodes_XYN (a : BitVec 4) (f : RegIdx → RegIdx → Fin 16 → Instr)
    (hf : ∀ x y n, encode (f x y n) = encodeXYN a x y (nibble n) := by intros; rfl)
    (hsys : ∀ x y n m, f x y n ≠ .sys m := by nofun) :
    RowDecodes (0xF000, encodeXYN a 0 0 0, fun x y n _ _ => f x y n) :=
  rowDecodes_of_encode (fun x y n _ _ => hsys x y n) fun _ h =>
    have ha := (fieldA_of_masked (m := 0xF000) h rfl).trans (fieldA_encodeXYN a 0 0 0)
    (hf _ _ _).trans (encodeXYN_fields ha rfl)

/-- Format XYN where the lowest nibble selects the opcode. -/
theorem rowDecodes_XY (a sel : BitVec 4) (f : RegIdx → RegIdx → Instr)
    (hf : ∀ x y, encode (f x y) = encodeXYN a x y sel := by intros; rfl)
    (hsys : ∀ x y m, f x y ≠ .sys m := by nofun) :
    RowDecodes (0xF00F, encodeXYN a 0 0 sel, fun x y _ _ _ => f x y) :=
  rowDecodes_of_encode (fun x y _ _ _ => hsys x y) fun _ h =>
    have ha := (fieldA_of_masked (m := 0xF00F) h rfl).trans (fieldA_encodeXYN a 0 0 sel)
    have hn := (fieldN_of_masked (m := 0xF00F) h rfl).trans (fieldN_encodeXYN a 0 0 sel)
    (hf _ _).trans (encodeXYN_fields ha hn)

/-- Format XF: the trailing byte selects the opcode. -/
theorem rowDecodes_XF (a : BitVec 4) (sel : Byte) (f : RegIdx → Instr)
    (hf : ∀ x, encode (f x) = encodeXKK a x sel := by intros; rfl) (hsys : ∀ x m, f x ≠ .sys m := by nofun) :
    RowDecodes (0xF0FF, encodeXKK a 0 sel, fun x _ _ _ _ => f x) :=
  rowDecodes_of_encode (fun x _ _ _ _ => hsys x) fun _ h =>
    have ha := (fieldA_of_masked (m := 0xF0FF) h rfl).trans (fieldA_encodeXKK a 0 sel)
    have hkk := (fieldKK_of_masked (m := 0xF0FF) h rfl).trans (fieldKK_encodeXKK a 0 sel)
    (hf _).trans (encodeXKK_fields ha hkk)

/-- A row without fields: the whole word. -/
theorem rowDecodes_whole (i : Instr) (hsys : ∀ m, i ≠ .sys m := by nofun) :
    RowDecodes (0xFFFF, encode i, fun _ _ _ _ _ => i) :=
  rowDecodes_of_encode (fun _ _ _ _ _ => hsys) fun _ h => h.symm.trans BitVec.and_allOnes

/-- Every row of the opcode map, in its order, by its format. -/
theorem rowDecodes_of_mem : ∀ row ∈ opcodeMap, RowDecodes row := by
  simp only [opcodeMap, List.cons_append, List.nil_append, List.forall_mem_cons]
  exact ⟨rowDecodes_whole .cls, rowDecodes_whole .ret, rowDecodes_NNN 0x1 .jp, rowDecodes_NNN 0x2 .call,
    rowDecodes_XKK 0x3 .seImm, rowDecodes_XKK 0x4 .sneImm, rowDecodes_XY 0x5 0x0 .seReg,
    rowDecodes_XKK 0x6 .ldImm, rowDecodes_XKK 0x7 .addImm,
    rowDecodes_XY 0x8 0x0 .ldReg, rowDecodes_XY 0x8 0x1 .or, rowDecodes_XY 0x8 0x2 .and, rowDecodes_XY 0x8 0x3 .xor,
    rowDecodes_XY 0x8 0x4 .addReg, rowDecodes_XY 0x8 0x5 .sub, rowDecodes_XY 0x8 0x6 .shr,
    rowDecodes_XY 0x8 0x7 .subn, rowDecodes_XY 0x8 0xE .shl, rowDecodes_XY 0x9 0x0 .sneReg,
    rowDecodes_NNN 0xA .ldI, rowDecodes_NNN 0xB .jpV0, rowDecodes_XKK 0xC .rnd, rowDecodes_XYN 0xD .drw,
    rowDecodes_XF 0xE 0x9E .skp, rowDecodes_XF 0xE 0xA1 .sknp,
    rowDecodes_XF 0xF 0x07 .ldVDt, rowDecodes_XF 0xF 0x0A .ldK, rowDecodes_XF 0xF 0x15 .ldDtV,
    rowDecodes_XF 0xF 0x18 .ldStV, rowDecodes_XF 0xF 0x1E .addI, rowDecodes_XF 0xF 0x29 .ldF,
    rowDecodes_XF 0xF 0x33 .ldB, rowDecodes_XF 0xF 0x55 .ldMemV, rowDecodes_XF 0xF 0x65 .ldVMem,
    fun _ h => absurd h List.not_mem_nil⟩

/-! ### The words no row takes -/

/-- Without STRICT_5_9 the lowest nibble of 9xyn is not examined (R89). -/
theorem decode_9xyn {cfg : Config} {w : Word} (hcfg : cfg.strict59 = false) (hw : fieldA w = 0x9#4) :
    decode cfg w = .op (.sneReg (fieldX w) (fieldY w)) := by
  simp [decode, hw, decodeFamily59, hcfg]

/-- A 0nnn word that is neither CLS nor RET is SYS exactly under SYS_POLICY = ignore (R88). -/
theorem decode_0nnn {w : Word} (cfg : Config) (hw : fieldA w = 0x0#4) (hcls : w ≠ 0x00E0#16)
    (hret : w ≠ 0x00EE#16) :
    decode cfg w = if cfg.sysPolicy = .ignore then .op (.sys (fieldNNN w)) else .decodeFault w := by
  have hdec : decode cfg w = decodeFamily0 cfg w := by simp [decode, hw]
  rw [hdec, decodeFamily0, if_neg hcls, if_neg hret]

end Sys2Proof

open Sys2Proof

/-- Settles O5: the table of rows, by format; then the two rows whose nibble is not examined, and SYS. -/
theorem decodeFollowsTheOpcodeMap : Obligations.DecodeFollowsTheOpcodeMap := by
  refine ⟨fun cfg w row hrow => rowDecodes_of_mem row hrow cfg w, fun cfg w hcfg => ?_, fun cfg w h hcls hret => ?_⟩
  · rw [← fieldX_eq_ofNat, ← fieldY_eq_ofNat]
    exact ⟨fun h => decode_5xyn hcfg (fieldA_of_masked h rfl), fun h => decode_9xyn hcfg (fieldA_of_masked h rfl)⟩
  · exact decode_0nnn cfg (fieldA_of_masked h rfl) hcls hret

/-- Settles O1: each word is evaluated. -/
theorem writtenOutWordsDecode : Obligations.WrittenOutWordsDecode := by
  unfold Obligations.WrittenOutWordsDecode
  decide

end

section
/-! Instructions that change PC alone, and RET: SYS, JP, JP V0, the skips on registers and keys, the self-jump
(41_control_flow.md R120 to R128; 45_keypad_timer.md R190 to R192; 40_engine.md R115). -/

namespace Sys2Proof.Machine

/-! ### A step that ends and writes nothing else -/

/-- Ending the step changes PC alone. -/
theorem State.ended_frame (s : State) (w : Word) (o : StepOutcome) : UnchangedBut [.pc] s (s.ended w o) :=
  ((Unchanged.refl (fun _ => False) s).ended rfl).mono fun c hc => by simpa using hc

/-- What an instruction that only moves PC by `d` shows. -/
theorem exists_moved {i : Instr} {s : State} {d : Word} (h : exec i s = .next (s.ended (s.pc + d))) :
    ∃ t, exec i s = .next t ∧ t.pc = s.pc + d ∧ t.outcome = .continued ∧ UnchangedBut [.pc] s t :=
  ⟨_, h, rfl, rfl, s.ended_frame _ _⟩

theorem exec_jp (nnn : Addr12) (s : State) : exec (.jp nnn) s = .next (s.ended (nnn.setWidth 16)) :=
  (exec_next_iff (.jp nnn) s _).2 rfl

theorem exec_jpV0_of_mayRead {nnn : Addr12} {s : State} (h : s.mayRead [.v (jumpOffsetReg s.cfg nnn)]) :
    exec (.jpV0 nnn) s =
      .next (s.ended (nnn.setWidth 16 + (s.getV (jumpOffsetReg s.cfg nnn)).setWidth 16)) :=
  (exec_next_iff (.jpV0 nnn) s _).2 ⟨h, rfl⟩

/-- The offset register by its number: 0, or the leading nibble of nnn (R128). -/
theorem jumpOffsetReg_eq_of_val {cfg : Config} {nnn : Addr12} {r : RegIdx}
    (h : r.val = if cfg.jumpOffsetReg = .v0 then 0 else nnn.toNat / 256) : jumpOffsetReg cfg nnn = r := by
  refine Fin.ext ?_
  rw [h]
  cases hr : cfg.jumpOffsetReg with
  | v0 => simp [jumpOffsetReg, hr]
  | vx =>
    have hlt : nnn.toNat / 256 < 16 := by omega
    simp [jumpOffsetReg, hr, BitVec.extractLsb', Nat.shiftRight_eq_div_pow, Nat.mod_eq_of_lt hlt]

/-! ### The skips -/

theorem exec_seImm_of_mayRead {x : RegIdx} (kk : Byte) {s : State} (h : s.mayRead [.v x]) :
    exec (.seImm x kk) s = .next (s.ended (s.pc + (if s.getV x = kk then 4 else 2))) :=
  (exec_next_iff (.seImm x kk) s _).2 ⟨h, by simp⟩

theorem exec_sneImm_of_mayRead {x : RegIdx} (kk : Byte) {s : State} (h : s.mayRead [.v x]) :
    exec (.sneImm x kk) s = .next (s.ended (s.pc + (if s.getV x = kk then 2 else 4))) :=
  (exec_next_iff (.sneImm x kk) s _).2 ⟨h, by simp⟩

theorem exec_seReg_of_mayRead {x y : RegIdx} {s : State} (h : s.mayRead [.v x, .v y]) :
    exec (.seReg x y) s = .next (s.ended (s.pc + (if s.getV x = s.getV y then 4 else 2))) :=
  (exec_next_iff (.seReg x y) s _).2 ⟨h, by simp⟩

theorem exec_sneReg_of_mayRead {x y : RegIdx} {s : State} (h : s.mayRead [.v x, .v y]) :
    exec (.sneReg x y) s = .next (s.ended (s.pc + (if s.getV x = s.getV y then 2 else 4))) :=
  (exec_next_iff (.sneReg x y) s _).2 ⟨h, by simp⟩

theorem exec_skp_of_key {x : RegIdx} {s : State} {k : Fin 16} (h : s.mayRead [.v x])
    (hk : keyIndex? s.cfg (s.getV x) = some k) :
    exec (.skp x) s = .next (s.ended (s.pc + (if s.keys[k] = true then 4 else 2))) :=
  (exec_next_iff (.skp x) s _).2 ⟨h, k, hk, rfl⟩

theorem exec_sknp_of_key {x : RegIdx} {s : State} {k : Fin 16} (h : s.mayRead [.v x])
    (hk : keyIndex? s.cfg (s.getV x) = some k) :
    exec (.sknp x) s = .next (s.ended (s.pc + (if s.keys[k] = true then 2 else 4))) :=
  (exec_next_iff (.sknp x) s _).2 ⟨h, k, hk, by cases s.keys[k] <;> rfl⟩

/-- A key index past 0xF under the policy fault is the fault of R190, for both key skips. -/
theorem exec_keySkip_of_none {x : RegIdx} {s : State} (h : s.mayRead [.v x])
    (hk : keyIndex? s.cfg (s.getV x) = none) :
    exec (.skp x) s = .fault (.unspecified s.site .keyIndexRange) ∧
      exec (.sknp x) s = .fault (.unspecified s.site .keyIndexRange) :=
  ⟨(State.reading_of_mayRead h _).trans (State.withKey_of_none hk _),
    (State.reading_of_mayRead h _).trans (State.withKey_of_none hk _)⟩

/-! ### The self-jump -/

/-- The word of JP nnn. -/
theorem toNat_encode_jp (nnn : Addr12) : (encode (.jp nnn)).toNat = 0x1000 + nnn.toNat := by
  have ha : (encode (.jp nnn)).toNat / 0x1000 = 1 := by
    rw [← toNat_fieldA]
    exact congrArg BitVec.toNat (fieldA_encodeNNN 0x1#4 nnn)
  have hn : (encode (.jp nnn)).toNat % 0x1000 = nnn.toNat := by
    have h : (fieldNNN (encode (.jp nnn))).toNat = nnn.toNat := congrArg BitVec.toNat (fieldNNN_encodeNNN 0x1#4 nnn)
    rwa [fieldNNN, BitVec.extractLsb'_toNat, Nat.shiftRight_zero] at h
  omega

end Sys2Proof.Machine

open Sys2Proof Sys2Proof.Machine

/-- Settles O21: SYS moves PC by two under one policy, and under the other is the decode fault of its word. -/
theorem sysIsANoOpWhenIgnored : Obligations.SysIsANoOpWhenIgnored :=
  fun nnn _ => ⟨fun h => exists_moved (exec_sys_of_ignore nnn h),
    fun h => ⟨_, toNat_encode_sys nnn, exec_sys_of_decodeFault nnn h⟩⟩

/-- Settles O22: above SP = 0 the slot below SP is the one RET jumps to; at SP = 0 it is the fault. -/
theorem retPopsTheReturnAddress : Obligations.RetPopsTheReturnAddress := by
  intro s
  constructor
  · intro hsp
    have hpos : s.sp.val ≠ 0 := fun e => hsp (Fin.ext e)
    have hj : s.sp.val = (⟨s.sp.val - 1, by omega⟩ : Fin 16).val + 1 := (Nat.succ_pred_eq_of_ne_zero hpos).symm
    have hret := exec_ret_of_sp hj
    exact ⟨_, _, hret, hj.symm, rfl, rfl, rfl, (exec_unchanged hret).mono fun c hc => by simpa [Instr.changes] using hc⟩
  · exact exec_ret_of_sp_zero

/-- Settles O23: JP ends the step at nnn. -/
theorem jpJumps : Obligations.JpJumps :=
  fun nnn s => ⟨_, exec_jp nnn s, toNat_addr nnn, rfl, s.ended_frame _ _⟩

/-- Settles O25: CALL leaves PC + 2 in the slot SP, and RET at SP + 1 takes it and restores SP. -/
theorem callThenRetReturns : Obligations.CallThenRetReturns := by
  intro nnn s hsp
  have hcall := exec_call_of_sp_ne nnn (s := s) fun e => by
    rw [e] at hsp
    omega
  have hret := exec_ret_of_sp (p := s.sp) (s := ({ s with
    stack := s.stack.set s.sp (s.pc + 2), sp := s.sp + 1 }.ended (nnn.setWidth 16)))
    (Fin.val_add_one_of_lt' (by omega))
  refine ⟨_, _, hcall, hret, exec_call_slot hcall, ?_⟩
  exact ((s.withSlot_frame s.sp (s.pc + 2)).ended rfl).mono fun c hc => by simpa using hc

/-- Settles O27: each skip by its comparison; of the illegal words of R93 only class (e) is in families 5 and 9. -/
theorem registerSkipsCompare : Obligations.RegisterSkipsCompare := by
  refine ⟨fun x kk s h => ?_, fun x y s h => ?_, fun cfg w hw => ?_⟩
  · exact ⟨exists_moved (exec_seImm_of_mayRead kk h), exists_moved (exec_sneImm_of_mayRead kk h)⟩
  · exact ⟨exists_moved (exec_seReg_of_mayRead h), exists_moved (exec_sneReg_of_mayRead h)⟩
  · rw [decode_eq_fault_iff, IllegalWord, toNat_fieldA, toNat_fieldN]
    obtain e | e := hw <;> simp [e]

/-- Settles O28: the offset register is `jumpOffsetReg`, and the sum does not wrap. -/
theorem jpV0AddsTheOffsetRegister : Obligations.JpV0AddsTheOffsetRegister := by
  intro nnn s r hr h
  have hreg := jumpOffsetReg_eq_of_val hr
  subst hreg
  exact ⟨_, exec_jpV0_of_mayRead h, toNat_addr_add nnn _, rfl, s.ended_frame _ _⟩

/-- Settles O44: the key index is Vx, or its low nibble; where there is none both skips fault. -/
theorem keySkipsTestTheKey : Obligations.KeySkipsTestTheKey := by
  intro x s h
  constructor
  · intro k hk hok
    have hkey : keyIndex? s.cfg (s.getV x) = some k := (keyIndex?_eq_some hok).trans (congrArg some (Fin.ext hk.symm))
    exact ⟨exists_moved (exec_skp_of_key h hkey), exists_moved (exec_sknp_of_key h hkey)⟩
  · intro hlt hpolicy
    exact exec_keySkip_of_none h (keyIndex?_eq_none hlt hpolicy)

/-- Settles O12: the fetched word is that of JP to PC, so the step ends where it began. -/
theorem selfJumpLoopsForever : Obligations.SelfJumpLoopsForever := by
  intro s nnn hpc hle hbytes
  have hfetch : s.fetch? = some (encode (.jp nnn)) :=
    fetch?_of_toNat (by omega) ((toNat_encode_jp nnn).trans hbytes.symm)
  have hstep : step s = exec (.jp nnn) s := step_of_op hfetch (decode_encode s.cfg nofun)
  have htarget : nnn.setWidth 16 = s.pc := BitVec.eq_of_toNat_eq ((toNat_addr nnn).trans hpc.symm)
  rw [exec_jp, htarget] at hstep
  exact ⟨_, hstep, rfl, s.ended_at_pc_frame .continued⟩

end

section
/-! Instructions that write I, a timer or a register and go on (42_load_index.md R142 to R144; 43_arith.md R171;
45_keypad_timer.md R193 to R196; 60_exceptions.md R218). -/

namespace Sys2Proof.Machine

/-- The frame of a completed instruction whose changes are a finite list. -/
theorem exec_unchangedBut {i : Instr} {s t : State} {cs : List Component} (h : exec i s = .next t)
    (hle : ∀ c, Instr.changes i s c → c ∈ cs) : UnchangedBut cs s t :=
  (exec_unchanged h).mono hle

/-- Writing I and ending the step changes PC and I. -/
theorem State.setIndex_ended_frame (s : State) (v w : Word) :
    UnchangedBut [.pc, .index] s ((s.setIndex v).ended w) :=
  ((s.setIndex_frame v).ended rfl).mono fun c hc => by simpa using hc

theorem exec_ldI (nnn : Addr12) (s : State) :
    exec (.ldI nnn) s = .next ((s.setIndex (nnn.setWidth 16)).ended (s.pc + 2)) :=
  (exec_next_iff (.ldI nnn) s _).2 rfl

theorem exec_ldF_of_mayRead {x : RegIdx} {s : State} (h : s.mayRead [.v x]) :
    exec (.ldF x) s = .next ((s.setIndex (glyphAddress (fontDigit s.cfg (s.getV x)))).ended (s.pc + 2)) :=
  (exec_next_iff (.ldF x) s _).2 ⟨h, rfl⟩

theorem exec_addI_of_mayRead {x : RegIdx} {s : State} (h : s.mayRead [.index, .v x]) :
    exec (.addI x) s =
      .next ((s.setIndex (BitVec.ofNat 16 (s.index.toNat + (s.getV x).toNat))).ended (s.pc + 2)) :=
  (exec_next_iff (.addI x) s _).2 ⟨h, rfl⟩

theorem toNat_fontDigit (cfg : Config) (b : Byte) :
    (fontDigit cfg b).toNat = if cfg.fontDigitMode = .unmasked then b.toNat else b.toNat % 16 := by
  cases h : cfg.fontDigitMode with
  | unmasked => simp [fontDigit, h]
  | lowNibble => simpa [fontDigit, h] using toNat_and_0F b

/-- The address of a glyph does not wrap (R144). -/
theorem toNat_glyphAddress (d : Byte) : (glyphAddress d).toNat = 5 * d.toNat :=
  (BitVec.toNat_ofNat _ _).trans (Nat.mod_eq_of_lt (by omega))

theorem exec_rnd (x : RegIdx) (kk : Byte) (s : State) :
    exec (.rnd x kk) s =
      .next ({ s.setV x (Config.randomByte s.draws &&& kk) with draws := s.draws + 1 }.ended (s.pc + 2)) :=
  (exec_next_iff (.rnd x kk) s _).2 rfl

theorem exec_ldVDt_of_mayRead (x : RegIdx) {s : State} (h : s.mayRead [.dt]) :
    exec (.ldVDt x) s = .next ((s.setV x s.dt).ended (s.pc + 2)) :=
  (exec_next_iff (.ldVDt x) s _).2 ⟨h, rfl⟩

theorem exec_ldDtV_of_mayRead {x : RegIdx} {s : State} (h : s.mayRead [.v x]) :
    exec (.ldDtV x) s = .next ((s.setDt (s.getV x)).ended (s.pc + 2)) :=
  (exec_next_iff (.ldDtV x) s _).2 ⟨h, rfl⟩

theorem exec_ldStV_of_mayRead {x : RegIdx} {s : State} (h : s.mayRead [.v x]) :
    exec (.ldStV x) s = .next ((s.setSt (s.getV x)).ended (s.pc + 2)) :=
  (exec_next_iff (.ldStV x) s _).2 ⟨h, rfl⟩

/-- The sound output is active exactly while ST is not 0 (10_state.md R32). -/
theorem soundActive_iff (s : State) : s.soundActive = true ↔ s.st.toNat ≠ 0 := by
  rw [State.soundActive, bne_iff_ne, ne_eq, BitVec.toNat_eq]
  rfl

/-! ### Timer ticks -/

/-- A timer falls by one and stops at 0 (10_state.md R31). -/
theorem toNat_decay (b : Byte) : (decay b).toNat = b.toNat - 1 := by
  unfold decay
  split <;> bv_omega

/-- A timer tick changes the timers alone, and none of the marks. -/
theorem State.timerTick_frame (s : State) : UnchangedBut [.dt, .st] s s.timerTick := by
  intro c hc
  cases c <;> simp_all [Component.same, State.byte, State.getV]

/-- Any number of timer ticks changes the timers alone. -/
theorem timerTick_iterate_eq (n : Nat) (s : State) :
    ∃ d e, State.timerTick^[n] s = { s with dt := d, st := e } := by
  induction n generalizing s with
  | zero => exact ⟨s.dt, s.st, rfl⟩
  | succ n ih =>
    obtain ⟨d, e, h⟩ := ih s.timerTick
    exact ⟨d, e, h⟩

/-! ### The blocked wait -/

/-- With one key pressed after none was, that is the key a wait takes. -/
theorem lowestKey?_set_of_none {keys : Vector Bool 16} (hnone : ∀ j : Fin 16, keys[j] = false) (k : Fin 16) :
    lowestKey? (keys.set k true) = some k := by
  refine lowestKey?_of_lowest (by simp) fun j hj => ?_
  have hne : k.val ≠ j.val := (Fin.lt_def.1 hj).ne'
  simpa [Vector.getElem_set, hne] using hnone j

end Sys2Proof.Machine

open Sys2Proof Sys2Proof.Machine

/-- Settles O30: both loads end a write of I, of nnn or of the glyph's address, and neither value wraps. -/
theorem indexLoads : Obligations.IndexLoads := by
  refine ⟨fun nnn s => ?_, fun x s h => ?_⟩
  · exact ⟨_, exec_ldI nnn s, toNat_addr nnn, rfl, rfl, s.setIndex_ended_frame _ _⟩
  · have hval := (toNat_glyphAddress (fontDigit s.cfg (s.getV x))).trans (congrArg (5 * ·) (toNat_fontDigit s.cfg _))
    exact ⟨_, exec_ldF_of_mayRead h, hval, rfl, rfl, s.setIndex_ended_frame _ _⟩

/-- Settles O31: ADD I,Vx ends a write of I, of the sum in 16 bits. -/
theorem addIndexWraps : Obligations.AddIndexWraps :=
  fun _ s h => ⟨_, exec_addI_of_mayRead h, BitVec.toNat_ofNat _ _, rfl, rfl, s.setIndex_ended_frame _ _⟩

/-- Settles O40: RND ends a write of Vx, of the byte of this request and kk, and counts the request. -/
theorem rndMasksTheRandomByte : Obligations.RndMasksTheRandomByte := by
  intro x kk s
  have hrnd := exec_rnd x kk s
  have hval : (s.setV x (Config.randomByte s.draws &&& kk)).getV x = Config.randomByte s.draws &&& kk := by simp
  exact ⟨_, hrnd, (congrArg BitVec.toNat hval).trans (BitVec.toNat_and _ _), rfl, rfl, rfl,
    exec_unchangedBut hrnd fun c hc => by simpa [Instr.changes] using hc⟩

/-- Settles O47: each transfer ends a write of its destination. -/
theorem timerTransfers : Obligations.TimerTransfers := by
  refine fun x s => ⟨fun h => ?_, fun h => ?_, fun h => ?_⟩
  · exact ⟨_, exec_ldVDt_of_mayRead x h, s.getV_setV_ended_self x _ _, rfl, rfl, s.setV_ended_frame x _ _⟩
  · have hexec := exec_ldDtV_of_mayRead h
    exact ⟨_, hexec, rfl, rfl, rfl, exec_unchangedBut hexec fun c hc => by simpa [Instr.changes] using hc⟩
  · have hexec := exec_ldStV_of_mayRead h
    exact ⟨_, hexec, rfl, soundActive_iff _, rfl, rfl,
      exec_unchangedBut hexec fun c hc => by simpa [Instr.changes] using hc⟩

/-- Settles O48: a tick is one saturating decrement of each timer. -/
theorem timerTickDecaysBoth : Obligations.TimerTickDecaysBoth :=
  fun s => ⟨_, rfl, toNat_decay s.dt, toNat_decay s.st, rfl, s.timerTick_frame, rfl⟩

/-- Settles O46: with no key pressed the wait ends at its own PC, so the next step fetches it again, and ticks and
the key press leave the fetch as it is; then the pressed key is the only one. -/
theorem blockedWaitIsRetried : Obligations.BlockedWaitIsRetried := by
  intro s w x k hfetch hdec hnone
  have hwait := (step_of_op hfetch hdec).trans (exec_ldK_of_no_key x hnone)
  refine ⟨_, hwait, rfl, s.ended_at_pc_frame .awaitInput, fun ticks => ?_⟩
  obtain ⟨d, e, hticks⟩ := timerTick_iterate_eq ticks (s.ended s.pc .awaitInput)
  rw [hticks]
  have hstep := step_of_op (s := ({ s.ended s.pc .awaitInput with dt := d, st := e } : State).setKey k true) hfetch hdec
  rw [exec_ldK_of_lowestKey x (lowestKey?_set_of_none hnone k)] at hstep
  refine ⟨_, hstep, rfl, rfl, ?_⟩
  rw [State.getV_setV_ended_self, toNat_ofNat_key]

end

section
/-! The write of a result and a flag, and of a logic result (43_arith.md R160 to R170): each flag and result as a
number, and one lemma that takes a completed instruction to what its statement shows. -/

namespace Sys2Proof.Machine

/-! ### Results and flags as numbers -/

theorem toNat_flagOf {p : Prop} [Decidable p] : (flagOf (decide p)).toNat = if p then 1 else 0 := by
  by_cases h : p <;> simp [flagOf, h]

theorem toNat_flagOf_bool (c : Bool) : (flagOf c).toNat = c.toNat := by
  cases c <;> rfl

theorem toNat_carryFlag (a b : Byte) : (carryFlag a b).toNat = if 0xFF < a.toNat + b.toNat then 1 else 0 :=
  toNat_flagOf

theorem toNat_noBorrowFlag (a b : Byte) : (noBorrowFlag a b).toNat = if b.toNat ≤ a.toNat then 1 else 0 :=
  toNat_flagOf

theorem toNat_subResult (a b : Byte) : (subResult a b).toNat = (a.toNat + 256 - b.toNat) % 256 := by
  rw [subResult, BitVec.toNat_ofInt]
  omega

theorem toNat_shrResult (a : Byte) : (shrResult a).toNat = a.toNat / 2 := by
  simp [shrResult, Nat.shiftRight_eq_div_pow]

theorem toNat_shlResult (a : Byte) : (shlResult a).toNat = a.toNat * 2 % 256 := by
  simp [shlResult, Nat.shiftLeft_eq]

theorem toNat_shrFlag (a : Byte) : (shrFlag a).toNat = a.toNat % 2 := by
  rw [shrFlag, toNat_flagOf_bool, BitVec.getLsbD, Nat.toNat_testBit]
  simp

theorem toNat_shlFlag (a : Byte) : (shlFlag a).toNat = a.toNat / 128 := by
  rw [shlFlag, toNat_flagOf_bool, BitVec.getLsbD, Nat.toNat_testBit]
  omega

/-! ### The two writes -/

/-- The result and the flag are seen as R160 says, with VF_ORDER where they are one register. -/
theorem resultAndFlag_setWithFlag (s : State) (x : RegIdx) (r f : Byte) (w : Word) :
    ResultAndFlag s ((s.setWithFlag x r f).ended w) x r.toNat f.toNat := by
  refine ⟨fun hx => ?_, fun hx => ?_⟩
  · simp [State.getV_setWithFlag, hx]
  · subst hx
    simp [State.getV_setWithFlag, apply_ite BitVec.toNat]

/-- What an instruction shows that ends with the write of a result and a flag. -/
theorem exists_resultAndFlag {i : Instr} {s : State} {x : RegIdx} {r f : Byte} {result flag : Nat}
    (h : exec i s = .next ((s.setWithFlag x r f).ended (s.pc + 2))) (hr : r.toNat = result) (hf : f.toNat = flag) :
    ∃ t, exec i s = .next t ∧ ResultAndFlag s t x result flag ∧ t.pc = s.pc + 2 ∧ t.outcome = .continued ∧
      UnchangedBut [.pc, .v x, .v 15] s t := by
  have hframe := (s.setWithFlag_unchanged x r f).ended (t := (s.setWithFlag x r f).ended (s.pc + 2)) rfl
  exact ⟨_, h, hr ▸ hf ▸ resultAndFlag_setWithFlag s x r f _, rfl, rfl, hframe.mono fun c hc => by simpa using hc⟩

/-- What a logic instruction shows: its result, and VF per LOGIC_VF_RESET. -/
theorem logicResult_of_exec {i : Instr} {f : Nat → Nat → Nat} {x y : RegIdx} {s : State} {r : Byte}
    (h : exec i s = .next ((s.setLogic x r).ended (s.pc + 2))) (hr : r.toNat = f (s.getV x).toNat (s.getV y).toNat) :
    LogicResult i f x y s := by
  refine ⟨_, h, fun hreset => ?_, fun hreset => ?_, rfl, rfl, ?_⟩
  · simp [State.setLogic, hreset, hr]
  · rw [← hr, State.setLogic, if_pos hreset]
    exact resultAndFlag_setWithFlag s x r 0 _
  · exact (s.setLogic_unchanged x r).ended rfl

end Sys2Proof.Machine

open Sys2Proof Sys2Proof.Machine

/-- Settles O36: each operation ends with the write of a logic result, and is bitwise on numbers too. -/
theorem logicIsBitwise : Obligations.LogicIsBitwise := by
  intro x y s h
  exact ⟨logicResult_of_exec ((exec_next_iff (.or x y) s _).2 ⟨h, rfl⟩) (BitVec.toNat_or _ _),
    logicResult_of_exec ((exec_next_iff (.and x y) s _).2 ⟨h, rfl⟩) (BitVec.toNat_and _ _),
    logicResult_of_exec ((exec_next_iff (.xor x y) s _).2 ⟨h, rfl⟩) (BitVec.toNat_xor _ _)⟩

/-- Settles O37: ADD Vx,Vy ends with the write of the sum and the carry of the old values. -/
theorem addRegistersCarries : Obligations.AddRegistersCarries :=
  fun x y s h => exists_resultAndFlag ((exec_next_iff (.addReg x y) s _).2 ⟨h, rfl⟩) (toNat_addResult _ _)
    (toNat_carryFlag _ _)

/-- Settles O38: SUB and SUBN end with the write of a difference and its NOT borrow, of the old values. -/
theorem subtractionsBorrow : Obligations.SubtractionsBorrow := by
  intro x y s h
  exact ⟨exists_resultAndFlag ((exec_next_iff (.sub x y) s _).2 ⟨h, rfl⟩) (toNat_subResult _ _)
      (toNat_noBorrowFlag _ _),
    exists_resultAndFlag ((exec_next_iff (.subn x y) s _).2 ⟨h, rfl⟩) (toNat_subResult _ _)
      (toNat_noBorrowFlag _ _)⟩

/-- Settles O39: SHR and SHL end with the write of the source shifted by one and the bit it loses. -/
theorem shiftsMoveOneBit : Obligations.ShiftsMoveOneBit := by
  intro x y r s hr h
  have hsource : r = shiftSourceReg s.cfg x y := by
    rw [hr]
    cases hc : s.cfg.shiftSource <;> simp [shiftSourceReg, hc]
  subst hsource
  exact ⟨exists_resultAndFlag ((exec_next_iff (.shr x y) s _).2 ⟨h, rfl⟩) (toNat_shrResult _) (toNat_shrFlag _),
    exists_resultAndFlag ((exec_next_iff (.shl x y) s _).2 ⟨h, rfl⟩) (toNat_shlResult _) (toNat_shlFlag _)⟩

end

section
/-! The memory transfers: LD B, LD [I],Vx and LD Vx,[I], and the fetch after a store (42_load_index.md R145 to R147;
20_memory.md R65). -/

namespace Sys2Proof.Machine

/-! ### The stores -/

/-- Stores are allowed at an address: the two spellings of the font check. -/
theorem le_of_allow_or_le {cfg : Config} {a : Nat} (h : cfg.fontWritePolicy = .allow ∨ 0x050 ≤ a) :
    cfg.fontWritePolicy = .fault → 0x050 ≤ a := fun hfault =>
  h.resolve_left fun hallow => nomatch hfault.symm.trans hallow

theorem exec_ldB_of_ok {x : RegIdx} {s : State} (h : s.mayRead [.v x, .index]) (hrange : s.index.toNat + 3 ≤ 0x1000)
    (hfont : s.cfg.fontWritePolicy = .allow ∨ 0x050 ≤ s.index.toNat) :
    exec (.ldB x) s = .next ((s.setBytes s.index.toNat (bcdDigits (s.getV x))).ended (s.pc + 2)) :=
  (exec_next_iff (.ldB x) s _).2 ⟨h, hrange, le_of_allow_or_le hfont, rfl⟩

theorem exec_ldMemV_of_ok {x : RegIdx} {s : State} (h : s.mayRead (.index :: regsUpTo x))
    (hrange : s.index.toNat + (x.val + 1) ≤ 0x1000)
    (hfont : s.cfg.fontWritePolicy = .allow ∨ 0x050 ≤ s.index.toNat) :
    exec (.ldMemV x) s =
      .next (((s.setBytes s.index.toNat (s.registers (x.val + 1))).stepIndex x).ended (s.pc + 2)) :=
  (exec_next_iff (.ldMemV x) s _).2 ⟨h, hrange, le_of_allow_or_le hfont, rfl⟩

/-- The stored digits, by their place. -/
theorem toNat_bcdDigits_getD (b : Byte) :
    ((bcdDigits b).getD 0 0).toNat = b.toNat / 100 ∧ ((bcdDigits b).getD 1 0).toNat = b.toNat % 100 / 10 ∧
      ((bcdDigits b).getD 2 0).toNat = b.toNat % 10 := by
  refine ⟨(BitVec.toNat_ofNat _ _).trans ?_, (BitVec.toNat_ofNat _ _).trans ?_, (BitVec.toNat_ofNat _ _).trans ?_⟩ <;>
    omega

/-- A byte inside the range of a completed instruction's store is the stored one. -/
theorem exec_byte_stored {i : Instr} {s t : State} (h : exec i s = .next t) (hwf : s.memWf) {k : Nat}
    (hk : k < (Instr.stored i s).length) : t.byte (s.index.toNat + k) = (Instr.stored i s).getD k 0 := by
  rw [exec_byte h hwf, if_pos ⟨Nat.le_add_right _ k, Nat.add_lt_add_left hk _⟩, Nat.add_sub_cancel_left]

/-- The frame of a completed instruction from a canonical memory: of the bytes it may change, those of its store. -/
theorem exec_unchanged_range {i : Instr} {s t : State} (h : exec i s = .next t) (hwf : s.memWf) :
    Unchanged (fun c => Instr.changes i s c ∧
      ∀ a, c = .mem a → ∃ k < (Instr.stored i s).length, a = s.index.toNat + k) s t := by
  intro c hc
  by_cases hch : Instr.changes i s c
  · obtain ⟨a, hca⟩ := not_forall.1 (not_and.1 hc hch)
    obtain ⟨rfl, hout⟩ := Classical.not_imp.1 hca
    by_contra hne
    obtain ⟨hlo, hhi⟩ := exec_byte_ne h hwf hne
    exact hout ⟨a - s.index.toNat, by omega, by omega⟩
  · exact exec_unchanged h c hch

/-- A register up to Vx is among V0..Vx by its own number. -/
theorem State.registers_getD_fin (s : State) {x k : RegIdx} (hk : k ≤ x) :
    (s.registers (x.val + 1)).getD k.val 0 = s.getV k := by
  rw [s.registers_getD (Nat.lt_succ_of_le hk), Fin.ofNat_val_eq_self]

/-! ### I after the transfers -/

theorem toNat_indexAfter (s : State) (x : RegIdx) : (indexAfter s.cfg s.index x).toNat = movedIndex s x := by
  cases h : s.cfg.loadStoreIncrement <;> simp [indexAfter, movedIndex, h]

/-- I as the transfers leave it, from a state with the old I and configuration. -/
theorem toNat_stepIndex {s u : State} (x : RegIdx) (hi : u.index = s.index) (hc : u.cfg = s.cfg) :
    (u.stepIndex x).index.toNat = movedIndex s x := by
  rw [State.stepIndex_index, hi, hc, toNat_indexAfter]

@[simp] theorem State.stepIndex_getV (s : State) (x y : RegIdx) : (s.stepIndex x).getV y = s.getV y := by
  rw [State.stepIndex_only_index]
  rfl

/-! ### The load -/

theorem exec_ldVMem_of_ok {x : RegIdx} {s : State} (h : s.mayRead [.index])
    (hrange : s.index.toNat + (x.val + 1) ≤ 0x1000) :
    exec (.ldVMem x) s =
      .next (((s.setRegisters 0 (s.bytes s.index.toNat (x.val + 1))).stepIndex x).ended (s.pc + 2)) :=
  (exec_next_iff (.ldVMem x) s _).2 ⟨h, hrange, rfl⟩

/-- A register up to Vx is the byte of its number after the load. -/
theorem State.getV_setRegisters_bytes (s : State) (a : Nat) {x k : RegIdx} (hk : k ≤ x) :
    (s.setRegisters 0 (s.bytes a (x.val + 1))).getV k = s.byte (a + k.val) := by
  have hlen := s.bytes_length a (x.val + 1)
  have hlt : k.val < x.val + 1 := Nat.lt_succ_of_le hk
  rw [State.getV_setRegisters _ _ _ (by omega), if_pos (by omega), Nat.sub_zero, s.bytes_getD hlt]

/-! ### The next fetch -/

/-- The word fetched after a completed store, half by half, from what is stored at I on. -/
theorem nextFetchSees_of_exec {i : Instr} {s t : State} {n : Nat} {b : Nat → Nat} (h : exec i s = .next t)
    (hwf : s.memWf) (hpc : t.pc = s.pc + 2) (hle : s.pc.toNat + 4 ≤ 0x1000) (hlen : (Instr.stored i s).length = n)
    (hb : ∀ k < n, ((Instr.stored i s).getD k 0).toNat = b k) : NextFetchSees s t n b := by
  have hpc' : t.pc.toNat = s.pc.toNat + 2 := by
    rw [hpc, (toNat_pc_add (by omega)).1]
  have hafter : ∀ a, (t.byte a).toNat =
      if s.index.toNat ≤ a ∧ a < s.index.toNat + n then b (a - s.index.toNat) else (s.byte a).toNat := by
    intro a
    rw [exec_byte h hwf, hlen]
    split
    · exact hb _ (by omega)
    · rfl
  refine ⟨_, State.fetch?_of_le (by omega), ?_, ?_⟩
  · refine Eq.trans ?_ (hafter _)
    rw [toNat_wordOfBytes, hpc']
    omega
  · refine Eq.trans ?_ (hafter (s.pc.toNat + 2 + 1))
    rw [toNat_wordOfBytes, hpc']
    omega

end Sys2Proof.Machine

open Sys2Proof Sys2Proof.Machine

/-- Settles O32: LD B stores its three digits; past 0xFFF, and in a protected font region, it is the fault of the
store. -/
theorem bcdStoresTheDigits : Obligations.BcdStoresTheDigits := by
  intro x s hwf h
  refine ⟨fun hrange hfont => ?_, fun hout => ?_, fun hpolicy hlow => ?_⟩
  · have hexec := exec_ldB_of_ok h hrange hfont
    obtain ⟨h0, h1, h2⟩ := toNat_bcdDigits_getD (s.getV x)
    refine ⟨_, hexec, (congrArg BitVec.toNat (exec_byte_stored hexec hwf (Nat.succ_pos 2))).trans h0,
      (congrArg BitVec.toNat (exec_byte_stored hexec hwf (by decide : 1 < 3))).trans h1,
      (congrArg BitVec.toNat (exec_byte_stored hexec hwf (by decide : 2 < 3))).trans h2, rfl, rfl,
      (exec_unchanged_range hexec hwf).mono ?_⟩
    rintro c ⟨rfl | ⟨a, rfl⟩, hrange⟩
    · simp
    · obtain ⟨k, hk, rfl⟩ := hrange a rfl
      have hk3 : k < 3 := hk
      interval_cases k <;> simp
  · exact (State.reading_of_mayRead h _).trans (State.memWrite_of_not_inBounds (n := 3) rfl (Nat.succ_pos 2) hout _)
  · exact (State.reading_of_mayRead h _).trans
      (State.memWrite_of_font (n := 3) rfl (Nat.succ_pos 2) (by omega) hpolicy hlow _)

/-- Settles O33: LD [I],Vx stores the registers and moves I; past 0xFFF, and in a protected font region, it is the
fault of the store. -/
theorem bulkStoreWritesTheRegisters : Obligations.BulkStoreWritesTheRegisters := by
  intro x s hwf h
  have hlen := s.registers_length (x.val + 1)
  refine ⟨fun hrange hfont => ?_, fun hout => ?_, fun hpolicy hlow => ?_⟩
  · have hexec := exec_ldMemV_of_ok h hrange hfont
    have hindex := toNat_stepIndex (s := s) (u := s.setBytes s.index.toNat (s.registers (x.val + 1))) x
      (State.setBytes_index ..) (State.setBytes_cfg ..)
    refine ⟨_, hexec, fun k hk => ?_, hindex, rfl, rfl, (exec_unchanged_range hexec hwf).mono ?_⟩
    · exact (exec_byte_stored hexec hwf (hlen.symm ▸ Nat.lt_succ_of_le hk)).trans (s.registers_getD_fin hk)
    · rintro c ⟨hc | ⟨a, rfl⟩ | hc, hrange⟩
      · exact Or.inl hc
      · obtain ⟨k, hk, rfl⟩ := hrange a rfl
        have hkx : k < x.val + 1 := hlen ▸ hk
        exact Or.inr (Or.inr ⟨⟨k, by omega⟩, Fin.le_def.2 (Nat.le_of_lt_succ hkx), rfl⟩)
      · exact Or.inr (Or.inl hc)
  · exact (State.reading_of_mayRead h _).trans
      (State.memWrite_of_not_inBounds hlen (Nat.succ_pos x.val) (by omega) _)
  · exact (State.reading_of_mayRead h _).trans
      (State.memWrite_of_font hlen (Nat.succ_pos x.val) (by omega) hpolicy hlow _)

/-- Settles O34: LD Vx,[I] loads the registers and moves I; past 0xFFF it is the fault of the read. -/
theorem bulkLoadReadsTheRegisters : Obligations.BulkLoadReadsTheRegisters := by
  intro x s h
  refine ⟨fun hrange => ?_, fun hout => ?_⟩
  · have hexec := exec_ldVMem_of_ok h hrange
    have hindex := toNat_stepIndex (s := s) (u := s.setRegisters 0 (s.bytes s.index.toNat (x.val + 1))) x
      (State.setRegisters_index ..) (State.setRegisters_cfg ..)
    refine ⟨_, hexec, fun k hk => ?_, hindex, rfl, rfl, (exec_unchanged hexec).mono ?_⟩
    · rw [State.ended_getV, State.stepIndex_getV, State.getV_setRegisters_bytes s _ hk]
    · rintro c (hc | hc | hc)
      · exact Or.inl hc
      · exact Or.inr (Or.inr hc)
      · exact Or.inr (Or.inl hc)
  · exact (State.reading_of_mayRead h _).trans (State.memRead_of_not_inBounds (by omega) _)

/-- Settles O20: a store ends at PC + 2, so the next fetch reads memory there, stored bytes and old ones. -/
theorem storesReachTheNextFetch : Obligations.StoresReachTheNextFetch := by
  constructor
  · intro x s t hwf h hle
    refine nextFetchSees_of_exec h hwf (exec_pc h) hle (s.registers_length _) fun k hk => ?_
    exact congrArg BitVec.toNat (s.registers_getD hk)
  · intro x s t hwf h hle
    obtain ⟨h0, h1, h2⟩ := toNat_bcdDigits_getD (s.getV x)
    refine nextFetchSees_of_exec h hwf (exec_pc h) hle rfl fun k hk => ?_
    interval_cases k
    · exact h0
    · exact h1
    · exact h2

end

section
/-! DRW pixel by pixel, and the same sprite drawn twice (44_display.md R181, R182). -/

namespace Sys2Proof.Machine

/-! ### DRW completes, or its range is out of memory -/

theorem mayRead_append {s : State} {rs rs' : List Reg} (h : s.mayRead rs) (h' : s.mayRead rs') :
    s.mayRead (rs ++ rs') := by
  obtain hzero | hall := h
  · exact Or.inl hzero
  · obtain hzero | hall' := h'
    · exact Or.inl hzero
    · exact Or.inr fun r hr => (List.mem_append.1 hr).elim (hall r) (hall' r)

/-- With n = 0 nothing is read at I, so I is no read of DRW (decision D23). -/
theorem mayRead_drw {x y : RegIdx} {n : Fin 16} {s : State} (h : s.mayRead [.v x, .v y])
    (hindex : n ≠ 0 → s.mayRead [.index]) :
    s.mayRead (if n = 0 then [.v x, .v y] else [.v x, .v y, .index]) := by
  split
  · exact h
  · next hn => exact mayRead_append h (hindex hn)

/-- The sprite DRW draws, from the old registers and memory. -/
def State.drawn (s : State) (x y : RegIdx) (n : Fin 16) : Drawing :=
  drawSprite (s.getV x) (s.getV y) (s.bytes s.index.toNat n.val) s.disp

theorem exec_drw_of_ok {x y : RegIdx} {n : Fin 16} {s : State} (h : s.mayRead [.v x, .v y])
    (hindex : n ≠ 0 → s.mayRead [.index]) (hrange : n = 0 ∨ s.index.toNat + n.val ≤ 0x1000) :
    exec (.drw x y n) s = .next (({ s with disp := (s.drawn x y n).1 }.setV 15
      (flagOf (s.drawn x y n).2)).ended (s.pc + 2) .redrawRequested) :=
  (exec_next_iff (.drw x y n) s _).2 ⟨mayRead_drw h hindex, hrange.imp_left (congrArg Fin.val), rfl⟩

theorem exec_drw_of_out_of_range {x y : RegIdx} {n : Fin 16} {s : State} (h : s.mayRead [.v x, .v y])
    (hn : n ≠ 0) (hindex : s.mayRead [.index]) (hout : 0x1000 < s.index.toNat + n.val) :
    exec (.drw x y n) s = .fault (.outOfBoundsMemoryAccess s.site s.index.toNat n.val) := by
  have hpos : n.val ≠ 0 := fun e => hn (Fin.ext e)
  exact (State.reading_of_mayRead (mayRead_drw h fun _ => hindex) _).trans
    (State.memRead_of_not_inBounds (by omega) _)

/-! ### The pixels of the sprite -/

/-- The display index of a pixel, by its coordinates. -/
theorem pixelIndex_eq_iff {x y px py : Nat} (hx : px < 64) :
    pixelIndex x y = py * 64 + px ↔ px = x % 64 ∧ py = y % 32 := by
  unfold pixelIndex
  omega

/-- A set bit of the sprite at I, as a display index and as a pixel. -/
theorem spriteSets_iff {s : State} {x y : RegIdx} {n : Fin 16} {px py : Nat} (hx : px < 64) :
    spriteSets (s.getV x) (s.getV y) (s.bytes s.index.toNat n.val) (py * 64 + px) ↔ SpriteBitAt s x y n px py := by
  unfold spriteSets SpriteBitAt
  rw [State.bytes_length]
  refine exists_congr fun r => and_congr_right fun hr => exists_congr fun c => and_congr_right fun _ => ?_
  rw [s.bytes_getD hr, pixelIndex_eq_iff hx]

theorem bytes_length_le (s : State) (a : Nat) (n : Fin 16) : (s.bytes a n.val).length ≤ 32 := by
  rw [State.bytes_length]
  omega

theorem pixel_lt {px py : Nat} (hx : px < 64) (hy : py < 32) : py * 64 + px < 2048 := by
  omega

/-- What a completed DRW leaves: the drawn display, the collision in VF, I, memory and the other registers. -/
theorem exec_drw_next {x y : RegIdx} {n : Fin 16} {s t : State} (h : exec (.drw x y n) s = .next t) :
    t.disp = (s.drawn x y n).1 ∧ t.getV 15 = flagOf (s.drawn x y n).2 := by
  obtain ⟨-, -, rfl⟩ := (exec_next_iff (.drw x y n) s t).1 h
  exact ⟨rfl, by rw [State.ended_getV, State.getV_setV, if_pos rfl]; rfl⟩

/-- A pixel under a set bit of the sprite turns over. -/
theorem drw_pixel_of_bit {x y : RegIdx} {n : Fin 16} {s t : State} (h : exec (.drw x y n) s = .next t)
    {px py : Nat} (hx : px < 64) (hy : py < 32) (hbit : SpriteBitAt s x y n px py) :
    t.pixel px py = !s.pixel px py := by
  obtain ⟨hset, -, -⟩ := drawSprite_spec (s.getV x) (s.getV y) _ (bytes_length_le s s.index.toNat n) s.disp
  rw [State.pixel, (exec_drw_next h).1]
  exact hset _ (pixel_lt hx hy) ((spriteSets_iff hx).2 hbit)

/-- A pixel under no set bit of the sprite stays. -/
theorem drw_pixel_of_not_bit {x y : RegIdx} {n : Fin 16} {s t : State} (h : exec (.drw x y n) s = .next t)
    {px py : Nat} (hx : px < 64) (hy : py < 32) (hbit : ¬ SpriteBitAt s x y n px py) :
    t.pixel px py = s.pixel px py := by
  obtain ⟨-, hclear, -⟩ := drawSprite_spec (s.getV x) (s.getV y) _ (bytes_length_le s s.index.toNat n) s.disp
  rw [State.pixel, (exec_drw_next h).1]
  exact hclear _ (pixel_lt hx hy) fun hsets => hbit ((spriteSets_iff hx).1 hsets)

/-- A set bit of the sprite falls on a set pixel. -/
def Collides (s : State) (x y : RegIdx) (n : Fin 16) : Prop :=
  ∃ px < 64, ∃ py < 32, SpriteBitAt s x y n px py ∧ s.pixel px py = true

theorem drawn_collision_iff {x y : RegIdx} {n : Fin 16} {s : State} :
    (s.drawn x y n).2 = true ↔ Collides s x y n := by
  obtain ⟨-, -, hcol⟩ := drawSprite_spec (s.getV x) (s.getV y) _ (bytes_length_le s s.index.toNat n) s.disp
  refine hcol.trans ⟨?_, ?_⟩
  · rintro ⟨q, hq, hsets, hpix⟩
    have hx : q % 64 < 64 := Nat.mod_lt q (by decide)
    have hy : q / 64 < 32 := by omega
    have hq' : q / 64 * 64 + q % 64 = q := Nat.div_add_mod' q 64
    rw [← hq'] at hsets hpix
    exact ⟨q % 64, hx, q / 64, hy, (spriteSets_iff hx).1 hsets, hpix⟩
  · rintro ⟨px, hx, py, hy, hbit, hpix⟩
    exact ⟨_, pixel_lt hx hy, (spriteSets_iff hx).2 hbit, hpix⟩

/-- VF after DRW is 1 where the sprite collides, and 0 where it does not. -/
theorem drw_flag_of_collides {x y : RegIdx} {n : Fin 16} {s t : State} (h : exec (.drw x y n) s = .next t)
    (hcol : Collides s x y n) : t.getV 15 = 1 := by
  rw [(exec_drw_next h).2, drawn_collision_iff.2 hcol]
  rfl

theorem drw_flag_of_not_collides {x y : RegIdx} {n : Fin 16} {s t : State} (h : exec (.drw x y n) s = .next t)
    (hcol : ¬ Collides s x y n) : t.getV 15 = 0 := by
  rw [(exec_drw_next h).2, Bool.eq_false_iff.2 (mt drawn_collision_iff.1 hcol)]
  rfl

theorem drw_flag_eq_one_iff {x y : RegIdx} {n : Fin 16} {s t : State} (h : exec (.drw x y n) s = .next t) :
    t.getV 15 = 1 ↔ Collides s x y n := by
  refine ⟨fun hone => ?_, drw_flag_of_collides h⟩
  by_contra hcol
  rw [drw_flag_of_not_collides h hcol] at hone
  exact absurd hone (by decide)

/-- The collision is a set pixel that DRW turns off. -/
theorem collides_iff_turned_off {x y : RegIdx} {n : Fin 16} {s t : State} (h : exec (.drw x y n) s = .next t) :
    Collides s x y n ↔ ∃ px < 64, ∃ py < 32, s.pixel px py = true ∧ t.pixel px py = false := by
  refine exists_congr fun px => and_congr_right fun hx => exists_congr fun py => and_congr_right fun hy => ?_
  constructor
  · rintro ⟨hbit, hpix⟩
    exact ⟨hpix, by rw [drw_pixel_of_bit h hx hy hbit, hpix]; rfl⟩
  · rintro ⟨hpix, hoff⟩
    refine ⟨by_contra fun hbit => ?_, hpix⟩
    rw [drw_pixel_of_not_bit h hx hy hbit, hpix] at hoff
    exact absurd hoff (by decide)

/-! ### The second of two equal DRWs -/

/-- DRW changes neither memory nor I, so with the same origin registers the sprite falls where it fell. -/
theorem spriteBitAt_after_drw {x y : RegIdx} {n : Fin 16} {s t : State} (h : exec (.drw x y n) s = .next t)
    (hx : t.getV x = s.getV x) (hy : t.getV y = s.getV y) {px py : Nat} :
    SpriteBitAt t x y n px py ↔ SpriteBitAt s x y n px py := by
  have hbyte : ∀ a, t.byte a = s.byte a := State.byte_of_eq (exec_mem h) (exec_cfg h)
  have hindex : t.index = s.index := (exec_unchanged h .index (by simp [Instr.changes])).1
  simp only [SpriteBitAt, hbyte, hindex, hx, hy]

/-- Displays with the same pixels are the same. -/
theorem disp_eq_of_pixel {s t : State} (h : ∀ px py, px < 64 → py < 32 → t.pixel px py = s.pixel px py) :
    t.disp = s.disp := by
  refine disp_ext fun p => ?_
  have hpix := h (p.val % 64) (p.val / 64) (Nat.mod_lt _ (by decide)) (by omega)
  rwa [State.pixel, State.pixel, Nat.div_add_mod'] at hpix

/-- A byte that is not 0 has a set bit. -/
theorem exists_bit_of_ne_zero {b : Byte} (h : b ≠ 0) : ∃ c < 8, b.getLsbD (7 - c) = true := by
  by_contra hn
  have hclear : ∀ i < 8, b.getLsbD i = false := fun i hi =>
    Bool.eq_false_iff.2 fun hset => hn ⟨7 - i, by omega, by rwa [Nat.sub_sub_self (Nat.le_of_lt_succ hi)]⟩
  exact h (BitVec.eq_of_getLsbD_eq fun i hi => (hclear i hi).trans BitVec.getLsbD_zero.symm)

/-- The sprite has a set bit on some pixel exactly when one of its bytes is not 0. -/
theorem exists_spriteBitAt_iff {s : State} {x y : RegIdx} {n : Fin 16} :
    (∃ px < 64, ∃ py < 32, SpriteBitAt s x y n px py) ↔ ∃ r < n.val, s.byte (s.index.toNat + r) ≠ 0 := by
  constructor
  · rintro ⟨px, -, py, -, r, hr, c, -, hbit, -, -⟩
    refine ⟨r, hr, fun e => ?_⟩
    rw [e] at hbit
    exact absurd (hbit.symm.trans BitVec.getLsbD_zero) (by decide)
  · rintro ⟨r, hr, hne⟩
    obtain ⟨c, hc, hbit⟩ := exists_bit_of_ne_zero hne
    exact ⟨_, Nat.mod_lt _ (by decide), _, Nat.mod_lt _ (by decide), r, hr, c, hc, hbit, rfl, rfl⟩

end Sys2Proof.Machine

open Sys2Proof Sys2Proof.Machine

/-- Settles O42: pixel by pixel from `drawSprite_spec`, the collision as a set pixel turned off. -/
theorem drwXorsTheSprite : Obligations.DrwXorsTheSprite := by
  intro x y n s h hindex
  constructor
  · intro hrange
    have hdrw := exec_drw_of_ok h hindex hrange
    have hoff := collides_iff_turned_off hdrw
    exact ⟨_, hdrw, fun px py hx hy => ⟨drw_pixel_of_bit hdrw hx hy, drw_pixel_of_not_bit hdrw hx hy⟩,
      fun hcol => drw_flag_of_collides hdrw (hoff.2 hcol), fun hcol => drw_flag_of_not_collides hdrw (mt hoff.1 hcol),
      rfl, rfl, exec_unchanged hdrw⟩
  · intro hn hout
    exact exec_drw_of_out_of_range h hn (hindex hn) hout

/-- Settles O43: the second DRW turns the same pixels over again, and collides where the first turned one on. -/
theorem drawingTwiceRestores : Obligations.DrawingTwiceRestores := by
  intro x y n s t u hs hx hy ht
  have hbits : ∀ {px py}, SpriteBitAt t x y n px py ↔ SpriteBitAt s x y n px py := spriteBitAt_after_drw hs hx hy
  have hflag : u.getV 15 = 1 ↔ ∃ px < 64, ∃ py < 32, SpriteBitAt s x y n px py ∧ s.pixel px py = false := by
    refine (drw_flag_eq_one_iff ht).trans (exists_congr fun px => and_congr_right fun hpx =>
      exists_congr fun py => and_congr_right fun hpy => ?_)
    rw [hbits]
    refine and_congr_right fun hbit => ?_
    rw [drw_pixel_of_bit hs hpx hpy hbit, Bool.not_eq_true']
  refine ⟨disp_eq_of_pixel fun px py hpx hpy => ?_, hflag, fun hclear => ?_⟩
  · by_cases hbit : SpriteBitAt s x y n px py
    · rw [drw_pixel_of_bit ht hpx hpy (hbits.2 hbit), drw_pixel_of_bit hs hpx hpy hbit, Bool.not_not]
    · rw [drw_pixel_of_not_bit ht hpx hpy (mt hbits.1 hbit), drw_pixel_of_not_bit hs hpx hpy hbit]
  · have hoff : ∀ px py, s.pixel px py = false := fun px py => by rw [State.pixel, hclear]; exact BitVec.getLsbD_zero
    rw [hflag, ← exists_spriteBitAt_iff (x := x) (y := y)]
    simp only [hoff, and_true]

end
